-- ==== Sys2Proof/Word.lean ====
section
/-! DEFINITION. The two word types of the block: a stream symbol (R8 BYTE_W = 8, R11) and an index into
the frame buffer (R27, R40: 9 bits). -/

namespace Sys2Proof

/-- One symbol of the stream, an unsigned 8-bit value; bit 0 is the least significant (R10, R11). -/
abbrev Byte := BitVec 8

/-- A 9-bit unsigned number: `fill`, `blen`, `out_len` and every frame-buffer index (R26, R27, R40). -/
abbrev Idx := BitVec 9

end Sys2Proof
end

