-- ==== Sys2Proof/Config.lean ====
section
/-! DEFINITION. The parameters of 00_scope.md rule R8, each a named constant with the value this hardware
takes, and the free values of the model: the contents of a register that a rule has just made dead
(10_state.md R21, 93_implementation_defined.md U5). The masks are constants of the hardware, not registers
(R9, R31). -/

namespace Sys2Proof.Config

/-- R8 `BYTE_W`: bits of a stream symbol. -/
def byteW : Nat := 8

/-- R8 `SUM_W`: bits of the checksum. -/
def sumW : Nat := 8

/-- R8 `CATEGORY_MASK`: the two Id bits of the message category. -/
def categoryMask : Byte := 0x03#8

/-- R8 `ERROR_MASK`: the Id bit of the error flag. -/
def errorMask : Byte := 0x08#8

/-- R8 `ID_VALID_MASK`, fixed by derivation. -/
def idValidMask : Byte := categoryMask ||| errorMask

/-- R8 `ID_RESERVED_MASK`, fixed by derivation: the Id bits that must be zero. -/
def idReservedMask : Byte := ~~~idValidMask

/-- R8 `LEN_MIN`: the least Length the decoder accepts. -/
def lenMin : Nat := 1

/-- R8 `LEN_MAX`: the greatest Length, fixed by the width of the Length byte. -/
def lenMax : Nat := 255

/-- R8 `FRAME_MIN`. -/
def frameMin : Nat := lenMin + 2

/-- R8 `FRAME_MAX`. -/
def frameMax : Nat := lenMax + 2

/-- R8 `BUF_SIZE`: cells of the frame buffer, indices 0 to 256 (R40). -/
def bufSize : Nat := frameMax

/-- R8 `RQ_DEPTH`: the greatest number of bytes the replay queue holds (R47). -/
def rqDepth : Nat := lenMax

/-- R8 `ACCEPT_CATEGORY_ZERO` (92_eei_decisions.md D3): an Id whose category bits are 00 passes the Id test. -/
def acceptCategoryZero : Bool := true

/-- R97: at most `256 * 256` steps empty the replay queue. -/
def drainBound : Nat := 256 * 256

/-- Free value: what `id_reg` holds after the model's n-th draw, once a rule has made it dead (R21, U5). -/
opaque deadId : Nat → Byte

/-- Free value: what `len_reg` holds after the model's n-th draw, once a rule has made it dead (R21, U5). -/
opaque deadLen : Nat → Byte

/-- Free value: what `fill` holds after the model's n-th draw, once a rule has made it dead (R21, U5). -/
opaque deadFill : Nat → Idx

end Sys2Proof.Config
end

