-- ==== Sys2Proof/Syntax.lean ====
section
/-! DEFINITION. The operations of the block, one constructor per row of spec/opcode_table.json (rule R14 of
00_scope.md gives them their names), and the moves the outside world has at the block's inputs. -/

namespace Sys2Proof

/-- The thirteen operations. A byte operation carries the consumed byte `b` (R85); `IN.TAKE` carries
`in_data` (R119); `CHK.SUM`, `CHK.VALIDATE` and `FEED` carry a byte sequence (R105, R107, R123). -/
inductive Instr where
  | idAccept (b : Byte)             -- ID.ACCEPT, R87
  | idNoise (b : Byte)              -- ID.NOISE, R86
  | lenZero (b : Byte)              -- LEN.ZERO, R88
  | lenAccept (b : Byte)            -- LEN.ACCEPT, R89
  | accStore (b : Byte)             -- ACC.STORE, R90
  | accEmit (b : Byte)              -- ACC.EMIT, R91
  | accRewind (b : Byte)            -- ACC.REWIND, R92
  | chkSum (bytes : List Byte)      -- CHK.SUM, R105
  | chkValidate (bytes : List Byte) -- CHK.VALIDATE, R107
  | inTake (inData : Byte)          -- IN.TAKE, R119
  | rqTake                          -- RQ.TAKE, R120
  | feed (burst : List Byte)        -- FEED, R123
  | reset                           -- RESET, R185
  deriving DecidableEq, Repr

/-- One move of the outside world. The list of these in State is what the outside does next, oldest first.
An offered byte is held until the block takes it (R117), so a source that withdraws or changes it cannot
be written (U7). -/
inductive Input where
  /-- The source drives `in_valid = 1` with `in_data = b` and holds both until the byte is taken (R116, R117). -/
  | offer (b : Byte)
  /-- The source drives `in_valid = 0` for one step (R115: it delivers "at times of its own choosing"). -/
  | gap
  /-- The burst boundary `|` of the stimulus notation (R77): the source waits until the block is quiescent. -/
  | boundary
  /-- The reset input is asserted, between two steps (R185, R188). -/
  | reset
  /-- The caller hands over a whole burst, `FEED(s)` (R123); it waits until the block is quiescent. -/
  | feed (burst : List Byte)
  /-- A caller evaluates the pure function `sum8` (R105). -/
  | evalSum (bytes : List Byte)
  /-- A caller evaluates the pure predicate `valid` (R107). -/
  | evalValid (bytes : List Byte)
  deriving DecidableEq, Repr

end Sys2Proof
end

