-- ==== Sys2Proof/Decode.lean ====
section
/-! DEFINITION. Which operation is selected, and the encoder. The block executes no instructions
(30_encoding.md): a consumed byte together with the decoder's condition selects one of seven byte operations
(R71, R72), and the ports select the rest (R119 to R123, R185). Both selections are total. -/

namespace Sys2Proof

/-- The Id test of `Idle` (R64, R86, R87): the reserved bits are clear. With `ACCEPT_CATEGORY_ZERO` false it
would also ask for a category bit (92_eei_decisions.md, after D23). -/
def idTest (b : Byte) : Bool :=
  (b &&& Config.idReservedMask == 0#8) && (Config.acceptCategoryZero || (b &&& Config.categoryMask != 0#8))

/-- The Length test of `LengthPending` (R66, R88, R89): every Length from `LEN_MIN` on is accepted. -/
def lenTest (b : Byte) : Bool := decide (Config.lenMin ≤ b.toNat)

/-- What the selection of a byte operation looks at beside the byte (R71): `st`, and in `Accumulating`
whether the byte fills the buffer and, if so, the sum of the bytes before it. -/
inductive Ctx where
  | idle
  | lengthPending
  | storing
  | full (sum : Byte)
  deriving DecidableEq, Repr

/-- R71, the dispatch of a consumed byte; total and exclusive. -/
def decodeByte : Ctx → Byte → Instr
  | .idle, b => if idTest b then .idAccept b else .idNoise b
  | .lengthPending, b => if lenTest b then .lenAccept b else .lenZero b
  | .storing, b => .accStore b
  | .full sum, b => if b = sum then .accEmit b else .accRewind b

/-- Why no operation is read from a byte sequence. -/
inductive Reject where
  /-- There is no byte: nothing is consumed and the block waits (R93 gives every byte a successor). -/
  | noByte
  deriving DecidableEq, Repr

/-- The decoder's answer: an operation and the bytes after it, or a rejection by name. -/
inductive Decoded where
  | op (i : Instr) (rest : List Byte)
  | reject (r : Reject)
  deriving DecidableEq, Repr

/-- Read one operation from the front of a byte sequence; an operation is one byte long (R85). -/
def decode (c : Ctx) : List Byte → Decoded
  | [] => .reject .noByte
  | b :: rest => .op (decodeByte c b) rest

/-- The bytes that select an operation: the consumed byte for the seven byte operations, none for the
operations that are "not selected by a byte value" (R105, R107, R119, R120, R123, R185). -/
def encode : Instr → List Byte
  | .idAccept b => [b]
  | .idNoise b => [b]
  | .lenZero b => [b]
  | .lenAccept b => [b]
  | .accStore b => [b]
  | .accEmit b => [b]
  | .accRewind b => [b]
  | .chkSum _ => []
  | .chkValidate _ => []
  | .inTake _ => []
  | .rqTake => []
  | .feed _ => []
  | .reset => []

/-- The condition of R71's table in which a byte operation stands (its row's `state` and `condition`). -/
def admits : Ctx → Instr → Bool
  | .idle, .idAccept _ => true
  | .idle, .idNoise _ => true
  | .lengthPending, .lenZero _ => true
  | .lengthPending, .lenAccept _ => true
  | .storing, .accStore _ => true
  | .full sum, .accEmit b => decide (b = sum)
  | .full sum, .accRewind b => decide (b ≠ sum)
  | _, _ => false

/-- What the ports select: an operation, with the moves left over, or nothing (the block is quiescent). -/
inductive Select where
  | run (i : Instr) (rest : List Input)
  | idle (rest : List Input)
  deriving DecidableEq, Repr

/-- The scheduling of the ports (R116, R119 to R121, R188), from the replay queue and the outside's moves.
`RESET` comes between steps whatever the queue holds; a non-empty queue is served before any new byte;
otherwise an offered byte is taken. -/
def selectPort (rq : List Byte) : List Input → Select
  | .reset :: rest => .run .reset rest
  | .evalSum s :: rest => .run (.chkSum s) rest
  | .evalValid s :: rest => .run (.chkValidate s) rest
  | .offer b :: rest => if rq.isEmpty then .run (.inTake b) rest else .run .rqTake (.offer b :: rest)
  | .feed s :: rest => if rq.isEmpty then .run (.feed s) rest else .run .rqTake (.feed s :: rest)
  | .boundary :: rest => if rq.isEmpty then .idle rest else .run .rqTake (.boundary :: rest)
  | .gap :: rest => if rq.isEmpty then .idle rest else .run .rqTake rest
  | [] => if rq.isEmpty then .idle [] else .run .rqTake []

/-- The move of the outside that asks for a port operation; `RQ.TAKE` is internal and byte operations are
asked for by bytes alone. -/
def request : Instr → Option Input
  | .inTake b => some (.offer b)
  | .feed s => some (.feed s)
  | .reset => some .reset
  | .chkSum s => some (.evalSum s)
  | .chkValidate s => some (.evalValid s)
  | .rqTake => none
  | .idAccept _ => none
  | .idNoise _ => none
  | .lenZero _ => none
  | .lenAccept _ => none
  | .accStore _ => none
  | .accEmit _ => none
  | .accRewind _ => none

/-- The one byte of a table word: its bits 7 to 0 (an operation is one byte; bits above are zero). -/
def tableByte (w : Nat) : Byte := BitVec.ofNat 8 w

/-- The operation the decoder reads from a table word in the condition the block is in after reset, `Idle`
(R35). A table row of another decoder state has no word of its own: the same byte selects it in that state
(R72). -/
def decodeTableWord (_nbits w : Nat) : Option Instr :=
  match decode .idle [tableByte w] with
  | .op i _ => some i
  | .reject _ => none

end Sys2Proof
end

