-- ==== Sys2Proof/Machine/State.lean ====
section
/-! DEFINITION. The state of the machine as plain data: the six items of 10_state.md rule R20, the output
port and the labels of the last operation, the outside world's moves and the frames its sink has received,
and the model's own counter of free values; the two ways a step can stop; the state after reset. -/

namespace Sys2Proof.Machine

/-- R23: the decoder state register, an enumeration (92_eei_decisions.md D16). -/
inductive DecState where
  | idle
  | lengthPending
  | accumulating
  deriving DecidableEq, Repr

/-- R118: one transaction of the output port (`out_valid = 1`). -/
structure OutTxn where
  /-- `out_frame`: the frame by value, first byte of the stream first. -/
  frame : List Byte
  /-- `out_len`. -/
  len : Idx
  /-- `out_err`. -/
  err : Bool
  deriving DecidableEq, Repr

/-- R161: the error kinds the block itself raises, E1 to E3, each with the value R162 to R164 record.
They are labels for testing and reach no port (R160). -/
inductive ErrorKind where
  | syncNoise (b : Byte)
  | zeroLength (id : Byte)
  | checksumMismatch (candidate : List Byte)
  deriving DecidableEq, Repr

/-- The result of a pure function of 41_checksum_validator.md: one byte of `sum8`, one bit of `valid`. -/
inductive FnResult where
  | sum (v : Byte)
  | valid (v : Bool)
  deriving DecidableEq, Repr

/-- R22: the abstract view of the decoder. -/
inductive Decoder where
  | idle
  | lengthPending (id : Byte)
  | accumulating (held : List Byte)
  deriving DecidableEq, Repr

/-- The block has no faulting condition at all (R160, R169; 93_implementation_defined.md: "No behaviour of
the block is a `fault`"), so there is no fault reason and no meaning can end in one. -/
inductive Fault where
  deriving DecidableEq, Repr

/-- Why a meaning gives no next state. -/
inductive Refusal where
  /-- Raised by exec's arm of an operation that has no meaning yet; no arm is one. Safe. -/
  | notModelled (mnemonic : String)
  /-- Raised by a byte operation that the state and the byte do not select: R71's selection is exclusive, and
  the spec gives an operation no effect where another is selected. Safe: a step never asks for it. -/
  | notSelected
  /-- Raised by a port operation that is not enabled: `IN.TAKE` and `FEED` with a non-empty replay queue
  (R119, R123), `RQ.TAKE` with an empty one (R120). Safe: a step never asks for it. -/
  | notEnabled
  /-- Raised in a state no run from reset reaches (U6: "they need no behaviour because no run reaches them"):
  a buffer cell below `fill` that holds nothing, `fill + 1` past `blen`, or a replay longer than R97's bound. Safe. -/
  | unreachableState
  /-- Raised by `CHK.VALIDATE` on the empty sequence (R107: "not defined"; U11: outside the domain). Safe. -/
  | outsideDomain
  deriving DecidableEq, Repr

/-- The whole state. R20's six items are `st`, `idReg`, `lenReg`, `fill`, `buf`, `rq`. -/
structure State where
  /-- R23 `st`. -/
  st : DecState
  /-- R24 `id_reg`, 8 bits, live in `LengthPending`. -/
  idReg : Byte
  /-- R25 `len_reg`, 8 bits, live in `Accumulating`. -/
  lenReg : Byte
  /-- R27 `fill`, 9 bits, live in `Accumulating`. -/
  fill : Idx
  /-- R40 `buf`: the cells that hold a value, by rising index; a cell not listed is dead and has no value (R21). -/
  buf : List Host.Cell
  /-- R44 `rq`: the replay queue, head first. -/
  rq : List Byte
  /-- R118, R35: the output port in the last operation; `none` is `out_valid = 0`. -/
  out : Option OutTxn
  /-- R160: the error kind the last operation raised, a label for testing. -/
  raised : Option ErrorKind
  /-- R105, R107: the result of the last operation, where it was one of the pure functions. -/
  fn : Option FnResult
  /-- R115: what the frame sink (outside the block) has received, first frame first. -/
  sink : List OutTxn
  /-- R115, R116: what the source and the reset input (outside the block) do next. -/
  inputs : List Input
  /-- The model's own: how many free values have been drawn. -/
  draws : Nat
  deriving DecidableEq, Repr

/-- R35: after reset `st = Idle`, `rq = []`, no output transaction is pending. The dead registers are zero and
the counter starts at zero (DESIGN CHOICE, log entry 1); nothing is listed in the buffer. -/
def State.reset : State where
  st := .idle
  idReg := 0#8
  lenReg := 0#8
  fill := 0#9
  buf := []
  rq := []
  out := none
  raised := none
  fn := none
  sink := []
  inputs := []
  draws := 0

end Sys2Proof.Machine
end

