-- ==== Sys2Proof/Machine/Flags.lean ====
section
/-! DEFINITION. The checksum validator's two functions (41_checksum_validator.md) and the one flag-like
signal of the block, `out_err` (10_state.md R30). HFS keeps no status flag. -/

namespace Sys2Proof.Machine

/-- R105 `sum8`: the exact sum first, then modulo 256; `sum8 [] = 0`. -/
def sum8 (s : List Byte) : Byte := BitVec.ofNat 8 (s.map BitVec.toNat).sum

/-- R107 `valid`: the last byte against the sum of all the others; `none` where there is no last byte. -/
def valid? (s : List Byte) : Option Bool :=
  match s.getLast? with
  | none => none
  | some last => some (last == sum8 s.dropLast)

/-- R33: the sum kept in an 8-bit accumulator, one byte at a time; an allowed implementation, not state. -/
def sumAcc (acc : Byte) : List Byte → Byte
  | [] => acc
  | b :: s => sumAcc (acc + b) s

/-- R118 `out_err`: bit 3 of the Id byte, the bit of `ERROR_MASK`. -/
def errFlag (id : Byte) : Bool := id &&& Config.errorMask != 0#8

end Sys2Proof.Machine
end

