-- ==== Sys2Proof/Machine/Ops.lean ====
section
/-! DEFINITION. The named operations on the frame buffer, the replay queue, the ports and the registers that
every meaning is written with (20_memory.md, 42_stream_interface.md, 60_exceptions.md). -/

namespace Sys2Proof.Machine

/-! ### The frame buffer (R40 to R43), kept by rising index with every index listed at most once -/

/-- `MemRead(a, 1)` (R13): the byte of cell `a`, `none` where the cell holds no value (it is dead, R21). -/
def Memory.read : List Host.Cell → Nat → Option Byte
  | [], _ => none
  | (k, v) :: m, a => if a = k then some v else Memory.read m a

/-- `MemWrite(a, 1, v)` (R13), in its place among the rising indices. -/
def Memory.write : List Host.Cell → Nat → Byte → List Host.Cell
  | [], a, v => [(a, v)]
  | (k, w) :: m, a, v =>
    if a < k then (a, v) :: (k, w) :: m
    else if a = k then (a, v) :: m
    else (k, w) :: Memory.write m a v

/-- `MemRead(a, n)` (R13): the bytes of cells `a` to `a + n - 1`, lowest index first, if all hold a value. -/
def Memory.readRange (m : List Host.Cell) : Nat → Nat → Option (List Byte)
  | _, 0 => some []
  | a, n + 1 =>
    match Memory.read m a, Memory.readRange m (a + 1) n with
    | some v, some vs => some (v :: vs)
    | _, _ => none

/-- The indices rise strictly from at least `lo` and stay in the buffer's address space 0 to 256 (R40). -/
def Memory.wfFrom : Nat → List Host.Cell → Bool
  | _, [] => true
  | lo, (k, _) :: m => decide (lo ≤ k) && decide (k < Config.bufSize) && Memory.wfFrom (k + 1) m

/-- The canonical form of the buffer's list: equal buffers are equal lists. -/
def Memory.wf (m : List Host.Cell) : Bool := Memory.wfFrom 0 m

/-! ### The replay queue (R44 to R46) -/

/-- R45: the returned bytes go to the front, in their order, ahead of all that is still queued. That the queue
never holds more than `RQ_DEPTH` bytes is the invariant of R47, not a check. -/
def Queue.pushFront (bytes rq : List Byte) : List Byte := bytes ++ rq

/-- R46: the head of the queue and what is left. -/
def Queue.pop : List Byte → Option (Byte × List Byte)
  | [] => none
  | b :: rq => some (b, rq)

/-! ### Ports, labels, dead registers -/

/-- Between two operations the output port shows no transaction and no label stands (R118: a transaction
happens "in, and only in, an `ACC.EMIT` step"). -/
def State.quiet (s : State) : State := { s with out := none, raised := none, fn := none }

/-- R118: the transaction that carries frame `f`. -/
def mkTxn (f : List Byte) : OutTxn :=
  { frame := f, len := BitVec.ofNat 9 f.length, err := errFlag (f.headD 0#8) }

/-- R91, R118 `emit Frame(f, e)`: the frame is on the output port and the sink, always ready, receives it. -/
def State.emit (s : State) (f : List Byte) : State :=
  { s with out := some (mkTxn f), sink := s.sink ++ [mkTxn f] }

/-- R160 `raise Kind(info)`: a label and nothing more. HFS has no trap: no state is saved, no mode changes
and there is no handler to return from (R169, R171). -/
def State.raise (s : State) (k : ErrorKind) : State := { s with raised := some k }

/-- The label of R161's table, E1 to E3, for tests only (92_eei_decisions.md D11). -/
def ErrorKind.code : ErrorKind → Nat
  | .syncNoise _ => 1
  | .zeroLength _ => 2
  | .checksumMismatch _ => 3

/-- `id_reg` becomes dead (R21, R24): it holds a free value from now on (U5). -/
def State.dropId (s : State) : State :=
  { s with idReg := Config.deadId s.draws, draws := s.draws + 1 }

/-- `len_reg`, `fill` and every cell of `buf` become dead (R21, R41 "discarded"): the registers hold free
values from now on and no cell of the buffer is listed (U5). -/
def State.dropFrame (s : State) : State :=
  { s with lenReg := Config.deadLen s.draws, fill := Config.deadFill s.draws, buf := [], draws := s.draws + 1 }

end Sys2Proof.Machine
end

