-- ==== Sys2Proof/Machine/Operands.lean ====
section
/-! DEFINITION. What the operations read of the state: the derived operands `blen` and `in_ready`, the
buffer's slices, the selection condition of R71, and the abstract view of R22. -/

namespace Sys2Proof.Machine

/-- R26 `blen`: `zext_9(len_reg) + 2`, 9 bits, the size of the frame being collected. -/
def State.blen (s : State) : Idx := s.lenReg.zeroExtend 9 + 2#9

/-- `buf[0..fill)`: the bytes collected so far (R22). -/
def State.collected (s : State) : Option (List Byte) := Memory.readRange s.buf 0 s.fill.toNat

/-- The buffer after `buf[fill] <- b`, the store every byte of `Accumulating` makes (R85). -/
def State.stored (s : State) (b : Byte) : List Host.Cell := Memory.write s.buf s.fill.toNat b

/-- `buf[0..blen)` after `buf[fill] <- b`: the whole candidate (R91, R92). -/
def State.candidate (s : State) (b : Byte) : Option (List Byte) :=
  Memory.readRange (s.stored b) 0 s.blen.toNat

/-- R116 `in_ready`: the block takes a new byte exactly when the replay queue is empty. -/
def State.inReady (s : State) : Bool := s.rq.isEmpty

/-- R116 `in_valid` and `in_data`: the byte the source offers now, if it offers one. -/
def State.offered (s : State) : Option Byte :=
  match s.inputs with
  | .offer b :: _ => some b
  | _ => none

/-- R71's condition column: `st`, then position. `fill + 1` is exact (R109). `none` is a state no run
reaches (U6). -/
def State.ctx (s : State) : Option Ctx :=
  match s.st with
  | .idle => some .idle
  | .lengthPending => some .lengthPending
  | .accumulating =>
    if s.fill.toNat + 1 < s.blen.toNat then some .storing
    else if s.fill.toNat + 1 = s.blen.toNat then s.collected.map (fun bs => .full (sum8 bs))
    else none

/-- A byte operation runs exactly where the state and the byte select it (R71). -/
def onSelected (i : Instr) (b : Byte) (s : State) (r : Host.Outcome State Fault Refusal) :
    Host.Outcome State Fault Refusal :=
  match s.ctx with
  | none => .refused .unreachableState
  | some c => if decodeByte c b = i then r else .refused .notSelected

/-- R22: the decoder part of the abstract view. -/
def State.dec (s : State) : Decoder :=
  match s.st with
  | .idle => .idle
  | .lengthPending => .lengthPending s.idReg
  | .accumulating => .accumulating (s.collected.getD [])

/-- The bytes of the stream a decoder value holds, in stream order (R48). -/
def Decoder.bytes : Decoder → List Byte
  | .idle => []
  | .lengthPending id => [id]
  | .accumulating bs => bs

/-- R48: the bytes the block holds, in stream order. -/
def State.held (s : State) : List Byte := s.dec.bytes ++ s.rq

/-- R36, R47: the bytes collected after Id and Length, `fill - 2` in `Accumulating`, else 0. -/
def State.pending (s : State) : Nat :=
  match s.st with
  | .accumulating => s.fill.toNat - 2
  | _ => 0

/-- R97: the bytes the attempt still lacks, `blen - fill` in `Accumulating`, else 0. -/
def State.lacking (s : State) : Nat :=
  match s.st with
  | .accumulating => s.blen.toNat - s.fill.toNat
  | _ => 0

end Sys2Proof.Machine
end

