-- ==== Sys2Proof/Machine/Checksum.lean ====
section
/-! DEFINITION. The two pure functions of the checksum validator as operations (41_checksum_validator.md). They
have no state of their own: only their result is shown. -/

namespace Sys2Proof.Machine

/-- R105 `CHK.SUM`: the result is `sum8 bytes`. -/
def execChkSum (bytes : List Byte) (s : State) : Host.Outcome State Fault Refusal :=
  .next { s.quiet with fn := some (.sum (sum8 bytes)) }

/-- R107 `CHK.VALIDATE`: the result is `valid bytes`; the empty sequence is outside the domain (U11). -/
def execChkValidate (bytes : List Byte) (s : State) : Host.Outcome State Fault Refusal :=
  match valid? bytes with
  | none => .refused .outsideDomain
  | some v => .next { s.quiet with fn := some (.valid v) }

end Sys2Proof.Machine
end

