-- ==== Sys2Proof/Machine/FrameDecoder.lean ====
section
/-! DEFINITION. The seven byte operations of 40_frame_decoder.md, rules R86 to R92, and the step they make
up, `consume` (R85). -/

namespace Sys2Proof.Machine

/-- R87 `ID.ACCEPT`: `id_reg <- b; st <- LengthPending`. -/
def execIdAccept (b : Byte) (s : State) : Host.Outcome State Fault Refusal :=
  onSelected (.idAccept b) b s (.next { s.quiet with idReg := b, st := .lengthPending })

/-- R86 `ID.NOISE`: `raise SyncNoise(b)`; nothing else is written. -/
def execIdNoise (b : Byte) (s : State) : Host.Outcome State Fault Refusal :=
  onSelected (.idNoise b) b s (.next (s.quiet.raise (.syncNoise b)))

/-- R88 `LEN.ZERO`: `raise ZeroLength(id_reg); st <- Idle`; `id_reg` becomes dead. -/
def execLenZero (b : Byte) (s : State) : Host.Outcome State Fault Refusal :=
  onSelected (.lenZero b) b s
    (.next { (s.quiet.raise (.zeroLength s.idReg)).dropId with st := .idle })

/-- R89 `LEN.ACCEPT`: `len_reg <- b; buf[0] <- id_reg; buf[1] <- b; fill <- 2; st <- Accumulating`;
`id_reg` becomes dead (R21). -/
def execLenAccept (b : Byte) (s : State) : Host.Outcome State Fault Refusal :=
  onSelected (.lenAccept b) b s
    (.next { s.quiet.dropId with
      lenReg := b
      buf := Memory.write (Memory.write s.buf 0 s.idReg) 1 b
      fill := 2#9
      st := .accumulating })

/-- R90 `ACC.STORE`: `buf[fill] <- b; fill <- fill + 1`. -/
def execAccStore (b : Byte) (s : State) : Host.Outcome State Fault Refusal :=
  onSelected (.accStore b) b s (.next { s.quiet with buf := s.stored b, fill := s.fill + 1#9 })

/-- R91 `ACC.EMIT`: `buf[fill] <- b; emit Frame(buf[0..blen), buf[0][3]); st <- Idle`; `len_reg`, `fill` and
`buf` become dead. -/
def execAccEmit (b : Byte) (s : State) : Host.Outcome State Fault Refusal :=
  onSelected (.accEmit b) b s
    (match s.candidate b with
    | none => .refused .unreachableState
    | some f => .next { (s.quiet.emit f).dropFrame with st := .idle })

/-- R92 `ACC.REWIND`: `buf[fill] <- b; raise ChecksumMismatch(buf[0..blen)); rq <- buf[2..blen) ++ rq;
st <- Idle`; `len_reg`, `fill` and `buf` become dead. -/
def execAccRewind (b : Byte) (s : State) : Host.Outcome State Fault Refusal :=
  onSelected (.accRewind b) b s
    (match s.candidate b with
    | none => .refused .unreachableState
    | some f =>
      .next { (s.quiet.raise (.checksumMismatch f)).dropFrame with
        rq := Queue.pushFront (f.drop 2) s.rq
        st := .idle })

/-- The meaning of a byte operation, for `consume`; the other operations consume no byte of their own. -/
def runByteOp (i : Instr) (s : State) : Host.Outcome State Fault Refusal :=
  match i with
  | .idAccept b => execIdAccept b s
  | .idNoise b => execIdNoise b s
  | .lenZero b => execLenZero b s
  | .lenAccept b => execLenAccept b s
  | .accStore b => execAccStore b s
  | .accEmit b => execAccEmit b s
  | .accRewind b => execAccRewind b s
  | .chkSum _ => .refused .notSelected
  | .chkValidate _ => .refused .notSelected
  | .inTake _ => .refused .notSelected
  | .rqTake => .refused .notSelected
  | .feed _ => .refused .notSelected
  | .reset => .refused .notSelected

/-- R85 `consume(b)`: the one operation that R71 selects for the byte. -/
def consume (b : Byte) (s : State) : Host.Outcome State Fault Refusal :=
  match s.ctx with
  | none => .refused .unreachableState
  | some c => runByteOp (decodeByte c b) s

end Sys2Proof.Machine
end

