-- ==== Sys2Proof/Machine/Stream.lean ====
section
/-! DEFINITION. The port-level operations: byte intake and the burst (42_stream_interface.md R119, R120, R123),
and reset (70_reset_and_hazards.md R185). -/

namespace Sys2Proof.Machine

/-- R119 `IN.TAKE`: enabled when `in_ready`; `consume(in_data)`. -/
def execInTake (inData : Byte) (s : State) : Host.Outcome State Fault Refusal :=
  if s.inReady then consume inData s else .refused .notEnabled

/-- R120 `RQ.TAKE`: the head of the queue is popped, then consumed. -/
def execRqTake (s : State) : Host.Outcome State Fault Refusal :=
  match Queue.pop s.rq with
  | none => .refused .notEnabled
  | some (b, rq) => consume b { s with rq := rq }

/-- R123 `while rq != []: RQ.TAKE`, with R97's bound on the number of steps as fuel. -/
def drain : Nat → State → Host.Outcome State Fault Refusal
  | 0, s => if s.inReady then .next s else .refused .unreachableState
  | n + 1, s =>
    if s.inReady then .next s
    else
      match execRqTake s with
      | .next t => drain n t
      | .fault r => .fault r
      | .refused r => .refused r

/-- R123, one turn of the burst's loop: a byte is taken from the input, then the queue is drained. -/
def feedByte (b : Byte) (s : State) : Host.Outcome State Fault Refusal :=
  match execInTake b s with
  | .next t => drain Config.drainBound t
  | .fault r => .fault r
  | .refused r => .refused r

/-- R123, the loop over the burst. -/
def feedBytes : List Byte → State → Host.Outcome State Fault Refusal
  | [], s => .next s
  | b :: bs, s =>
    match feedByte b s with
    | .next t => feedBytes bs t
    | .fault r => .fault r
    | .refused r => .refused r

/-- R123 `FEED(s)`: precondition `rq == []`. The frames it returns are those the sink receives. -/
def execFeed (burst : List Byte) (s : State) : Host.Outcome State Fault Refusal :=
  if s.inReady then feedBytes burst s.quiet else .refused .notEnabled

/-- R185 `RESET`: `st <- Idle; rq <- []`; `id_reg`, `len_reg`, `fill` and `buf` are dead; no output
transaction. The source's bytes and the sink's frames are unaffected (R186). -/
def execReset (s : State) : Host.Outcome State Fault Refusal :=
  .next { s.quiet.dropId.dropFrame with st := .idle, rq := [] }

end Sys2Proof.Machine
end

