-- ==== Sys2Proof/Machine/Dispatch.lean ====
section
/-! DEFINITION. One arm per operation, each one call of its meaning. -/

namespace Sys2Proof.Machine

def exec (i : Instr) (s : State) : Host.Outcome State Fault Refusal :=
  match i with
  -- 40_frame_decoder.md
  | .idAccept b => Sys2Proof.Machine.execIdAccept b s
  | .idNoise b => Sys2Proof.Machine.execIdNoise b s
  | .lenZero b => Sys2Proof.Machine.execLenZero b s
  | .lenAccept b => Sys2Proof.Machine.execLenAccept b s
  | .accStore b => Sys2Proof.Machine.execAccStore b s
  | .accEmit b => Sys2Proof.Machine.execAccEmit b s
  | .accRewind b => Sys2Proof.Machine.execAccRewind b s
  -- 41_checksum_validator.md
  | .chkSum bytes => Sys2Proof.Machine.execChkSum bytes s
  | .chkValidate bytes => Sys2Proof.Machine.execChkValidate bytes s
  -- 42_stream_interface.md
  | .inTake inData => Sys2Proof.Machine.execInTake inData s
  | .rqTake => Sys2Proof.Machine.execRqTake s
  | .feed burst => Sys2Proof.Machine.execFeed burst s
  -- 70_reset_and_hazards.md
  | .reset => Sys2Proof.Machine.execReset s

end Sys2Proof.Machine
end

