-- ==== Sys2Proof/Machine/Fetch.lean ====
section
/-! DEFINITION. Where the next step takes its byte from: the head of the replay queue, or the byte the source
offers (20_memory.md R44, 42_stream_interface.md R119, R120). -/

namespace Sys2Proof.Machine

/-- With an empty queue the source offers the byte first; with a non-empty one the byte stands at the head of
the queue, and the source offers nothing in that step. -/
def fetchWord (s : State) (_nbits w : Nat) : State :=
  match s.rq with
  | [] => { s with inputs := .offer (tableByte w) :: s.inputs }
  | _ :: rq => { s with rq := tableByte w :: rq, inputs := .gap :: s.inputs }

end Sys2Proof.Machine
end

