-- ==== Sys2Proof/Machine/Step.lean ====
section
/-! DEFINITION. One step: the operation the ports select is run; where they select none the block is
quiescent and waits (R121, R122). -/

namespace Sys2Proof.Machine

def step (s : State) : Host.Outcome State Fault Refusal :=
  match selectPort s.rq s.inputs with
  | .run i rest => exec i { s with inputs := rest }
  | .idle rest => .next { s.quiet with inputs := rest }

/-- The byte of a table word, put where the next step takes its byte from. -/
def State.withFetchWord (s : State) (nbits w : Nat) : State := fetchWord s nbits w

end Sys2Proof.Machine
end

