-- ==== Sys2Proof/Machine/Reference.lean ====
section
/-! DEFINITION. The stream-level semantics the step rules implement: well-formed frames (30_encoding.md R75,
R76), the reference function `Scan` (42_stream_interface.md R125), and a sequence of bursts (R126). -/

namespace Sys2Proof.Machine

/-- R75 `WF(f)`. -/
def frameWF (f : List Byte) : Bool :=
  match f with
  | id :: len :: rest =>
    decide (Config.frameMin ≤ f.length) && idTest id && (len != 0#8) && decide (rest.length = len.toNat) && (valid? f == some true)
  | _ => false

/-- R76 `mkframe(id, c)`: Id, Length `|c| + 1`, the content, the checksum. -/
def mkframe (id : Byte) (c : List Byte) : List Byte :=
  let h := id :: BitVec.ofNat 8 (c.length + 1) :: c
  h ++ [sum8 h]

/-- R125 `Scan`, by recursion on fuel: every call is on a strictly shorter sequence, so a fuel of the
sequence's length is enough. -/
def scanFuel : Nat → List Byte → List (List Byte) × Decoder
  | 0, _ => ([], .idle)
  | _ + 1, [] => ([], .idle)
  | n + 1, b :: s =>
    if !idTest b then scanFuel n s
    else
      match s with
      | [] => ([], .lengthPending b)
      | len :: rest =>
        if !lenTest len then scanFuel n rest
        else if rest.length < len.toNat then ([], .accumulating (b :: len :: rest))
        else
          let f := b :: len :: rest.take len.toNat
          if valid? f == some true then
            let r := scanFuel n (rest.drop len.toNat)
            (f :: r.1, r.2)
          else scanFuel n rest

/-- R125: the frames of the stream and the decoder reached. -/
def scan (s : List Byte) : List (List Byte) × Decoder := scanFuel s.length s

/-- R125 `Decode`. -/
def decodeStream (s : List Byte) : List (List Byte) := (scan s).1

/-- R126: `FEED` on the bursts in order. -/
def feedBursts : List (List Byte) → State → Host.Outcome State Fault Refusal
  | [], s => .next s
  | x :: xs, s =>
    match execFeed x s with
    | .next t => feedBursts xs t
    | .fault r => .fault r
    | .refused r => .refused r

end Sys2Proof.Machine
end

