-- ==== Sys2Proof/WellFormed.lean ====
section
/-! DEFINITION. Well-formed operations: the operand satisfies the condition its row of the table puts on the
operand alone (the conditions on the state are `admits`). -/

namespace Sys2Proof

/-- R86 to R89: the byte is one its row selects; R107: `valid` needs at least one byte (U11). -/
def Instr.wf : Instr → Bool
  | .idAccept b => idTest b
  | .idNoise b => !idTest b
  | .lenZero b => !lenTest b
  | .lenAccept b => lenTest b
  | .accStore _ => true
  | .accEmit _ => true
  | .accRewind _ => true
  | .chkSum _ => true
  | .chkValidate s => !s.isEmpty
  | .inTake _ => true
  | .rqTake => true
  | .feed _ => true
  | .reset => true

/-- A move of the outside asks for nothing outside the domain of `valid` (R107, U11). -/
def Input.wf : Input → Bool
  | .evalValid s => !s.isEmpty
  | .offer _ => true
  | .gap => true
  | .boundary => true
  | .reset => true
  | .feed _ => true
  | .evalSum _ => true

end Sys2Proof
end

