-- ==== Sys2Proof/Safety.lean ====
section
/-! DEFINITION. The terms claims use: the invariant of reachable states (10_state.md R36), sameness of
architectural states (R21), a run of the machine, and a frame the sink may have received (R75, R118). -/

namespace Sys2Proof

/-- The byte a move of the source offers, if it offers one. -/
def Input.offeredByte : Input → Option Byte
  | .offer b => some b
  | .gap => none
  | .boundary => none
  | .reset => none
  | .feed _ => none
  | .evalSum _ => none
  | .evalValid _ => none

end Sys2Proof

namespace Sys2Proof.Machine

/-- R36 items 2 and 3, for the registers and cells that are live; dead cells are not listed. -/
def State.decInv (s : State) : Prop :=
  match s.st with
  | .idle => s.buf = []
  | .lengthPending => s.buf = [] ∧ idTest s.idReg = true
  | .accumulating =>
    1 ≤ s.lenReg.toNat ∧ 2 ≤ s.fill.toNat ∧ s.fill.toNat ≤ s.lenReg.toNat + 1 ∧
    (∃ id, Memory.read s.buf 0 = some id ∧ idTest id = true) ∧
    Memory.read s.buf 1 = some s.lenReg ∧
    ∀ a, (Memory.read s.buf a).isSome = true ↔ a < s.fill.toNat

/-- R36: what holds in every state reachable from reset, with the canonical form of the buffer and of the
outside's moves. Item 4 is the bound on the queue (R47). -/
structure State.Inv (s : State) : Prop where
  bufWF : Memory.wf s.buf = true
  dec : s.decInv
  bound : s.rq.length + s.pending ≤ Config.rqDepth
  inputsWF : s.inputs.all Input.wf = true

/-- R75, R118: a transaction of a well-formed frame, with its length and its error flag. -/
def OutTxn.ok (t : OutTxn) : Prop :=
  frameWF t.frame = true ∧ t.len.toNat = t.frame.length ∧
    ∃ id len rest, t.frame = id :: len :: rest ∧ t.err = id.getLsbD 3 ∧ t.len.toNat = len.toNat + 2

/-- R21: two states that agree on `st`, on every live item, and on what the outside does next. -/
structure SameArch (s t : State) : Prop where
  st : s.st = t.st
  rq : s.rq = t.rq
  inputs : s.inputs = t.inputs
  id : s.st = .lengthPending → s.idReg = t.idReg
  len : s.st = .accumulating → s.lenReg = t.lenReg
  fill : s.st = .accumulating → s.fill = t.fill
  cells : s.st = .accumulating → ∀ a, a < s.fill.toNat → Memory.read s.buf a = Memory.read t.buf a

/-- What an operation shows: the output port, the label, the result of a pure function. -/
structure SameShown (s t : State) : Prop where
  out : s.out = t.out
  raised : s.raised = t.raised
  fn : s.fn = t.fn

/-- R123 `while rq != []: RQ.TAKE`: `t` is what the loop leaves of `s`. -/
inductive Drains : State → State → Prop where
  | done {s : State} (h : s.rq = []) : Drains s s
  | take {s u t : State} (h : exec .rqTake s = .next u) (d : Drains u t) : Drains s t

/-- R97's measure `(M, k)` in lexicographic order, as one number: `M = |rq| + r`, `k = blen - fill`. -/
def State.replayMeasure (s : State) : Nat := 256 * (s.rq.length + s.pending) + s.lacking

/-- `k` steps of the machine. -/
def run (k : Nat) (s : State) : Host.Outcome State Fault Refusal := Sys2Proof.core.run k s

end Sys2Proof.Machine
end

