-- ==== Sys2Proof/Certificates/Slice0/Obligations.lean ====
section
/-! DEFINITION. The statements for the provers: each says what an operation, a step or a whole run does, after
the rules of spec/ named in OBLIGATIONS.json. No statement rests on a free value. Where a frame says that a dead register
keeps its content by the model's choice, its docstring names log entry 2. -/

open Sys2Proof Sys2Proof.Machine

/-- ID.NOISE drops a byte with a reserved bit set and writes nothing (R86). -/
def Obligations.IdNoiseDropsByteAndWritesNothing : Prop :=
  ∀ (s : State) (b : Byte), s.st = .idle → b &&& 0xF4#8 ≠ 0#8 →
    ∃ t, exec (.idNoise b) s = .next t ∧ t.st = .idle ∧
      t.idReg = s.idReg ∧ t.lenReg = s.lenReg ∧ t.fill = s.fill ∧
      (∀ a, Memory.read t.buf a = Memory.read s.buf a) ∧ t.rq = s.rq ∧
      t.out = none ∧ t.raised = some (.syncNoise b) ∧ t.fn = none ∧
      t.sink = s.sink ∧ t.inputs = s.inputs

/-- ID.ACCEPT caches the Id and moves to LengthPending (that the dead registers len_reg and fill keep their
contents is the model's choice, log entry 2) (40_frame_decoder.md R87). -/
def Obligations.IdAcceptCachesIdAndAwaitsLength : Prop :=
  ∀ (s : State) (b : Byte), s.st = .idle → b &&& 0xF4#8 = 0#8 →
    ∃ t, exec (.idAccept b) s = .next t ∧ t.st = .lengthPending ∧ t.idReg = b ∧
      t.lenReg = s.lenReg ∧ t.fill = s.fill ∧
      (∀ a, Memory.read t.buf a = Memory.read s.buf a) ∧ t.rq = s.rq ∧
      t.out = none ∧ t.raised = none ∧ t.fn = none ∧ t.sink = s.sink ∧ t.inputs = s.inputs

/-- LEN.ZERO drops the Id and the zero byte and returns to Idle (that the dead registers len_reg and fill keep
their contents is the model's choice, log entry 2) (40_frame_decoder.md R88). -/
def Obligations.LenZeroDropsIdAndReturnsToIdle : Prop :=
  ∀ s : State, s.st = .lengthPending →
    ∃ t, exec (.lenZero 0x00#8) s = .next t ∧ t.st = .idle ∧
      t.lenReg = s.lenReg ∧ t.fill = s.fill ∧
      (∀ a, Memory.read t.buf a = Memory.read s.buf a) ∧ t.rq = s.rq ∧
      t.out = none ∧ t.raised = some (.zeroLength s.idReg) ∧ t.fn = none ∧
      t.sink = s.sink ∧ t.inputs = s.inputs

/-- LEN.ACCEPT opens the frame buffer with Id and Length (R89). -/
def Obligations.LenAcceptOpensFrameBuffer : Prop :=
  ∀ (s : State) (b : Byte), s.st = .lengthPending → b ≠ 0x00#8 →
    ∃ t, exec (.lenAccept b) s = .next t ∧ t.st = .accumulating ∧ t.lenReg = b ∧ t.fill = 2#9 ∧
      Memory.read t.buf 0 = some s.idReg ∧ Memory.read t.buf 1 = some b ∧
      (∀ a, a ≠ 0 → a ≠ 1 → Memory.read t.buf a = Memory.read s.buf a) ∧
      t.blen.toNat = b.toNat + 2 ∧ t.fill.toNat < t.blen.toNat ∧ t.rq = s.rq ∧
      t.out = none ∧ t.raised = none ∧ t.fn = none ∧ t.sink = s.sink ∧ t.inputs = s.inputs

/-- ACC.STORE writes buf[fill] and advances fill by one (that the dead register id_reg keeps its content is the
model's choice, log entry 2) (40_frame_decoder.md R90). -/
def Obligations.AccStoreWritesCellFillAndAdvances : Prop :=
  ∀ (s : State) (b : Byte), s.st = .accumulating → s.fill.toNat + 1 < s.blen.toNat →
    ∃ t, exec (.accStore b) s = .next t ∧ t.st = .accumulating ∧
      Memory.read t.buf s.fill.toNat = some b ∧
      (∀ a, a ≠ s.fill.toNat → Memory.read t.buf a = Memory.read s.buf a) ∧
      t.fill.toNat = s.fill.toNat + 1 ∧ t.idReg = s.idReg ∧ t.lenReg = s.lenReg ∧ t.rq = s.rq ∧
      t.out = none ∧ t.raised = none ∧ t.fn = none ∧ t.sink = s.sink ∧ t.inputs = s.inputs

/-- ACC.EMIT delivers the whole frame when the last byte equals the sum (that the dead register id_reg keeps its
content is the model's choice, log entry 2) (40_frame_decoder.md R91). -/
def Obligations.AccEmitDeliversFrameOnMatch : Prop :=
  ∀ (s : State) (b : Byte) (bs : List Byte), s.st = .accumulating → s.fill.toNat + 1 = s.blen.toNat →
    s.collected = some bs → b.toNat = (bs.map BitVec.toNat).sum % 256 →
    ∃ t o, exec (.accEmit b) s = .next t ∧ t.st = .idle ∧
      o.frame = bs ++ [b] ∧ o.len = s.blen ∧ o.frame.length = s.blen.toNat ∧
      o.err = (o.frame.headD 0#8).getLsbD 3 ∧
      t.out = some o ∧ t.sink = s.sink ++ [o] ∧
      t.idReg = s.idReg ∧ t.rq = s.rq ∧ t.raised = none ∧ t.fn = none ∧ t.inputs = s.inputs

/-- ACC.REWIND returns all len_reg bytes after Id and Length to the front of rq (that the dead register id_reg
keeps its content is the model's choice, log entry 2) (40_frame_decoder.md R92). -/
def Obligations.AccRewindRequeuesAllAfterLength : Prop :=
  ∀ (s : State) (b : Byte) (bs : List Byte), s.Inv → s.st = .accumulating →
    s.fill.toNat + 1 = s.blen.toNat → s.collected = some bs →
    b.toNat ≠ (bs.map BitVec.toNat).sum % 256 →
    ∃ t, exec (.accRewind b) s = .next t ∧ t.st = .idle ∧
      t.rq = (bs ++ [b]).drop 2 ++ s.rq ∧ ((bs ++ [b]).drop 2).length = s.lenReg.toNat ∧
      t.out = none ∧ t.raised = some (.checksumMismatch (bs ++ [b])) ∧ t.fn = none ∧
      t.idReg = s.idReg ∧ t.sink = s.sink ∧ t.inputs = s.inputs

/-- CHK.SUM shows the exact sum modulo 256 and changes nothing of the block (R105). -/
def Obligations.ChkSumResultIsSumModulo256 : Prop :=
  ∀ (s : State) (l : List Byte),
    ∃ t v, exec (.chkSum l) s = .next t ∧ t.fn = some (.sum v) ∧
      v.toNat = (l.map BitVec.toNat).sum % 256 ∧ (l = [] → v = 0#8) ∧
      t.st = s.st ∧ t.idReg = s.idReg ∧ t.lenReg = s.lenReg ∧ t.fill = s.fill ∧
      (∀ a, Memory.read t.buf a = Memory.read s.buf a) ∧ t.rq = s.rq ∧
      t.out = none ∧ t.raised = none ∧ t.sink = s.sink ∧ t.inputs = s.inputs

/-- CHK.VALIDATE is true iff the last byte equals the sum of all the others (R107). -/
def Obligations.ChkValidateComparesLastByte : Prop :=
  ∀ (s : State) (bs : List Byte) (x : Byte),
    ∃ t v, exec (.chkValidate (bs ++ [x])) s = .next t ∧ t.fn = some (.valid v) ∧
      (v = true ↔ x.toNat = (bs.map BitVec.toNat).sum % 256) ∧
      t.st = s.st ∧ t.idReg = s.idReg ∧ t.lenReg = s.lenReg ∧ t.fill = s.fill ∧
      (∀ a, Memory.read t.buf a = Memory.read s.buf a) ∧ t.rq = s.rq ∧
      t.out = none ∧ t.raised = none ∧ t.sink = s.sink ∧ t.inputs = s.inputs

/-- CHK.VALIDATE on the empty sequence is refused as outside its domain (the model's form of U11, log entry 7)
(41_checksum_validator.md R107, 93_implementation_defined.md U11). -/
def Obligations.ChkValidateRefusesTheEmptySequence : Prop :=
  ∀ s : State, exec (.chkValidate []) s = .refused .outsideDomain

/-- IN.TAKE with an empty queue runs the operation that the offered byte selects (R119). -/
def Obligations.InTakeConsumesTheOfferedByte : Prop :=
  (∀ (s : State) (b : Byte), s.Inv → s.rq = [] →
    ∃ c t, s.ctx = some c ∧ exec (.inTake b) s = .next t ∧ exec (decodeByte c b) s = .next t ∧
      t.inputs = s.inputs) ∧
  (∀ (s t : State) (b : Byte), exec (.inTake b) s = .next t → s.rq = [])

/-- RQ.TAKE pops the head of the queue and then consumes it (R120). -/
def Obligations.RqTakePopsThenConsumes : Prop :=
  (∀ (s : State) (b : Byte) (r : List Byte), s.Inv → s.rq = b :: r →
    ∃ c t, s.ctx = some c ∧ exec .rqTake s = .next t ∧
      exec (decodeByte c b) { s with rq := r } = .next t ∧ t.inputs = s.inputs) ∧
  (∀ s t : State, exec .rqTake s = .next t → s.rq ≠ [])

/-- FEED is, byte by byte, IN.TAKE and then RQ.TAKE until the queue is empty, and it completes on every burst
(42_stream_interface.md R123). -/
def Obligations.FeedIsTheLoopOverTheBurst : Prop :=
  ∀ s : State, s.Inv → s.rq = [] →
    exec (.feed []) s = .next s.quiet ∧
    ∀ (b : Byte) (bs : List Byte), ∃ u v w t, exec (.inTake b) s = .next u ∧ Drains u v ∧
      exec (.feed bs) v = .next w ∧ exec (.feed (b :: bs)) s = .next t ∧
      t.quiet = w.quiet ∧ t.rq = [] ∧ t.inputs = s.inputs

/-- RESET leaves Idle and an empty queue, from any state, and discards all the block holds (R185, R186). -/
def Obligations.ResetReturnsToIdleAndDiscards : Prop :=
  ∀ s : State, ∃ t, exec .reset s = .next t ∧ t.st = .idle ∧ t.rq = [] ∧ t.out = none ∧
      t.raised = none ∧ t.fn = none ∧ t.sink = s.sink ∧ t.inputs = s.inputs ∧
      SameArch t { State.reset with inputs := s.inputs }

/-- Every state and byte select exactly one of the seven operations, as the dispatch table says (R71). -/
def Obligations.ByteSelectionIsTotalAndExclusive : Prop :=
  ∀ (s : State) (b : Byte), s.Inv →
    ∃ i, encode i = [b] ∧ (∃ t, exec i s = .next t) ∧
      (∀ j, encode j = [b] → (∃ t, exec j s = .next t) → j = i) ∧
      (s.st = .idle → b &&& 0xF4#8 ≠ 0#8 → i = .idNoise b) ∧
      (s.st = .idle → b &&& 0xF4#8 = 0#8 → i = .idAccept b) ∧
      (s.st = .lengthPending → b = 0x00#8 → i = .lenZero b) ∧
      (s.st = .lengthPending → b ≠ 0x00#8 → i = .lenAccept b) ∧
      (s.st = .accumulating → s.fill.toNat + 1 < s.blen.toNat → i = .accStore b) ∧
      (s.st = .accumulating → s.fill.toNat + 1 = s.blen.toNat →
        ∃ bs, s.collected = some bs ∧ (b = sum8 bs → i = .accEmit b) ∧ (b ≠ sum8 bs → i = .accRewind b))

/-- Decoding and encoding of the byte operations are inverse in every selection condition (30_encoding.md R71,
30_encoding.md R72). -/
def Obligations.DecodeAndEncodeAgree : Prop :=
  ∀ (c : Ctx) (bytes : List Byte) (i : Instr) (rest : List Byte),
    decode c bytes = .op i rest ↔ admits c i = true ∧ i.wf = true ∧ bytes = encode i ++ rest

/-- With an empty queue the ports select the operation the outside asks for; RESET whatever the queue holds
(42_stream_interface.md R119, 42_stream_interface.md R123, 70_reset_and_hazards.md R185). -/
def Obligations.PortRequestSelectsItsOperation : Prop :=
  (∀ (i : Instr) (x : Input) (rest : List Input), request i = some x →
    selectPort [] (x :: rest) = .run i rest) ∧
  (∀ (rq : List Byte) (rest : List Input), selectPort rq (.reset :: rest) = .run .reset rest)

/-- Bytes written out from the spec's table decode to the rows they stand for (30_encoding.md R72,
95_test_vectors.md sections 3.1 to 3.3). -/
def Obligations.WordsOfTheSpecDecodeToTheirRows : Prop :=
  decodeTableWord 8 0x0A = some (.idAccept 0x0A#8) ∧ decodeTableWord 8 0x04 = some (.idNoise 0x04#8) ∧
  decodeTableWord 8 0x10 = some (.idNoise 0x10#8) ∧ decodeTableWord 8 0xFF = some (.idNoise 0xFF#8) ∧
  decode .lengthPending [0x00#8] = .op (.lenZero 0x00#8) [] ∧
  decode .lengthPending [0xFE#8] = .op (.lenAccept 0xFE#8) [] ∧
  decode .storing [0x2B#8] = .op (.accStore 0x2B#8) [] ∧
  decode (.full 0x2B#8) [0x2B#8] = .op (.accEmit 0x2B#8) [] ∧
  decode (.full 0x2B#8) [0x2C#8] = .op (.accRewind 0x2C#8) [] ∧
  decode .idle [] = .reject .noByte

/-- In Idle the bytes 00 to 03 and 08 to 0B are accepted and all 248 others are noise (R73). -/
def Obligations.ExactlyEightBytesStartAFrame : Prop :=
  (∀ (s : State) (b : Byte), s.st = .idle →
    ((∃ t, exec (.idAccept b) s = .next t) ↔ b.toNat ≤ 0x03 ∨ (0x08 ≤ b.toNat ∧ b.toNat ≤ 0x0B)) ∧
    ((∃ t, exec (.idNoise b) s = .next t) ↔ (0x04 ≤ b.toNat ∧ b.toNat ≤ 0x07) ∨ 0x0C ≤ b.toNat)) ∧
  (List.range 256).countP (fun n => idTest (BitVec.ofNat 8 n)) = 8 ∧
  (List.range 256).countP (fun n => !idTest (BitVec.ofNat 8 n)) = 248

/-- After reset st is Idle, rq is empty, no output transaction is pending and in_ready is 1 (R35). -/
def Obligations.ResetStateIsAsSpecified : Prop :=
  State.reset.st = .idle ∧ State.reset.rq = [] ∧ State.reset.out = none ∧ State.reset.inReady = true

/-- The state after reset meets the invariant of reachable states (10_state.md R35, 10_state.md R36). -/
def Obligations.ResetMeetsTheInvariant : Prop :=
  State.reset.Inv

/-- Every step keeps the invariant of reachable states (10_state.md R36, 20_memory.md R47). -/
def Obligations.EveryStepKeepsTheInvariant : Prop :=
  ∀ s t : State, s.Inv → step s = .next t → t.Inv

/-- From every state of the invariant a step answers a next state: the block never stops and the queue never
overflows (40_frame_decoder.md R93, 40_frame_decoder.md R94, 20_memory.md R47). -/
def Obligations.EveryStepAnswersANextState : Prop :=
  ∀ s : State, s.Inv → ∃ t, step s = .next t ∧ t.rq.length ≤ Config.rqDepth

/-- Every frame the block emits is well-formed, with its length and its error flag (30_encoding.md R75,
42_stream_interface.md R118). -/
def Obligations.SinkReceivesOnlyWellFormedFrames : Prop :=
  ∀ s t : State, s.Inv → (∀ o ∈ s.sink, o.ok) → step s = .next t → ∀ o ∈ t.sink, o.ok

/-- No byte is duplicated, reordered or invented: bytes only leave at the front, as a frame or dropped one or
two at a time (20_memory.md R48, 40_frame_decoder.md R93). -/
def Obligations.HeldBytesStayAContiguousSliceInOrder : Prop :=
  (∀ (s t : State) (b : Byte), s.Inv → exec (.inTake b) s = .next t →
    ∃ gone, s.held ++ [b] = gone ++ t.held ∧
      (∀ o, t.out = some o → gone = o.frame) ∧ (t.out = none → gone.length ≤ 2)) ∧
  (∀ s t : State, s.Inv → exec .rqTake s = .next t →
    ∃ gone, s.held = gone ++ t.held ∧
      (∀ o, t.out = some o → gone = o.frame) ∧ (t.out = none → gone.length ≤ 2))

/-- Every step fed from the queue lowers the measure of R97, which is below 256 * 256 (40_frame_decoder.md R97).
-/
def Obligations.ReplayMeasureFalls : Prop :=
  ∀ s : State, s.Inv → s.replayMeasure < 256 * 256 ∧
    ∀ t, exec .rqTake s = .next t → t.replayMeasure < s.replayMeasure

/-- If the outside does nothing, the replay queue is empty after at most 256 * 256 steps (40_frame_decoder.md
R97). -/
def Obligations.ReplayAlwaysDrains : Prop :=
  ∀ s : State, s.Inv → s.inputs = [] →
    ∃ k t, k ≤ 256 * 256 ∧ run k s = .next t ∧ t.rq = [] ∧ t.Inv

/-- From reset, FEED on any cut of a stream into bursts emits Decode(s) and ends in Scan's decoder state (R126).
-/
def Obligations.BurstsFromResetEmitDecode : Prop :=
  ∀ bursts : List (List Byte), ∃ t, feedBursts bursts State.reset = .next t ∧
    t.sink = (decodeStream bursts.flatten).map mkTxn ∧ t.dec = (scan bursts.flatten).2 ∧ t.rq = []

/-- From any quiescent state, FEED emits what Scan emits on the held bytes followed by the burst
(42_stream_interface.md R125, 42_stream_interface.md R126, 20_memory.md R48). -/
def Obligations.FeedContinuesScanFromTheHeldBytes : Prop :=
  ∀ (s : State) (x : List Byte), s.Inv → s.rq = [] → ∃ t, exec (.feed x) s = .next t ∧
    t.sink = s.sink ++ (decodeStream (s.held ++ x)).map mkTxn ∧ t.dec = (scan (s.held ++ x)).2 ∧ t.rq = []

/-- A concatenation of well-formed frames is emitted unchanged, one frame each, in order, ending in Idle (R127).
-/
def Obligations.CleanStreamPassesUnchanged : Prop :=
  ∀ fs : List (List Byte), (∀ f ∈ fs, frameWF f = true) →
    scan fs.flatten = (fs, .idle) ∧
    ∀ s : State, s.Inv → s.st = .idle → s.rq = [] →
      ∃ t, exec (.feed fs.flatten) s = .next t ∧ t.sink = s.sink ++ fs.map mkTxn ∧ t.st = .idle ∧ t.rq = []

/-- Decode(s) is the front part of Decode(s ++ t) (42_stream_interface.md R128). -/
def Obligations.EmittedFramesAreNeverWithdrawn : Prop :=
  ∀ x y : List Byte, decodeStream x <+: decodeStream (x ++ y)

/-- Changing any one byte of a valid buffer makes it invalid (41_checksum_validator.md R110). -/
def Obligations.SingleByteCorruptionIsDetected : Prop :=
  ∀ (s : State) (f : List Byte) (i : Nat) (x : Byte), valid? f = some true → (h : i < f.length) → x ≠ f[i] →
    ∃ t, exec (.chkValidate (f.set i x)) s = .next t ∧ t.fn = some (.valid false)

/-- sum8 of an extended, concatenated or permuted sequence (R106). -/
def Obligations.SumObeysTheIncrementalLaws : Prop :=
  (∀ (s : List Byte) (x : Byte), (sum8 (s ++ [x])).toNat = ((sum8 s).toNat + x.toNat) % 256) ∧
  (∀ s t : List Byte, (sum8 (s ++ t)).toNat = ((sum8 s).toNat + (sum8 t).toNat) % 256) ∧
  (∀ s t : List Byte, s.Perm t → sum8 s = sum8 t)

/-- An 8-bit accumulator updated per byte gives the sum over the buffer (10_state.md R33, 92_eei_decisions.md
D19). -/
def Obligations.RunningAccumulatorAgreesWithTheBuffer : Prop :=
  (∀ (id len : Byte) (c : List Byte), sumAcc (id + len) c = sum8 (id :: len :: c)) ∧
  (∀ s : List Byte, sumAcc 0#8 s = sum8 s)

/-- mkframe builds well-formed frames, and every well-formed frame is built by it (R76). -/
def Obligations.MkframeBuildsExactlyTheWellFormedFrames : Prop :=
  (∀ (id : Byte) (c : List Byte), id &&& 0xF4#8 = 0#8 → c.length ≤ 254 → frameWF (mkframe id c) = true) ∧
  (∀ f : List Byte, frameWF f = true → f = mkframe (f.headD 0#8) ((f.drop 2).dropLast))

/-- States that agree on st and on every live item step alike, whatever their dead items hold (R21). -/
def Obligations.NoObservableDependsOnADeadItem : Prop :=
  ∀ s s' t : State, SameArch s s' → step s = .next t →
    ∃ t', step s' = .next t' ∧ SameArch t t' ∧ SameShown t t' ∧
      ∃ new, t.sink = s.sink ++ new ∧ t'.sink = s'.sink ++ new

/-- In the final step ACC.EMIT runs iff the whole candidate is valid, ACC.REWIND iff not (R108). -/
def Obligations.EmitIsSelectedIffTheCandidateIsValid : Prop :=
  ∀ (s : State) (b : Byte), s.Inv → s.st = .accumulating → s.fill.toNat + 1 = s.blen.toNat →
    ∃ f bs, s.candidate b = some f ∧ s.collected = some bs ∧
      ((∃ t, exec (.accEmit b) s = .next t) ↔ valid? f = some true) ∧
      ((∃ t, exec (.accRewind b) s = .next t) ↔ valid? f = some false) ∧
      (valid? f = some true ↔ b = sum8 bs)

/-- A step consumes the next byte of the unconsumed pool and runs the operation it decodes to (20_memory.md R44,
42_stream_interface.md R119, 42_stream_interface.md R120, 42_stream_interface.md R121). -/
def Obligations.StepRunsTheOperationOfTheNextByte : Prop :=
  (∀ (s : State) (c : Ctx) (b : Byte) (rest : List Input), s.ctx = some c → s.rq = [] →
    s.inputs = .offer b :: rest → step s = exec (decodeByte c b) { s with inputs := rest }) ∧
  (∀ (s : State) (c : Ctx) (b : Byte) (r : List Byte), s.ctx = some c → s.rq = b :: r →
    (s.inputs = [] ∨ (∃ x l, s.inputs = .offer x :: l) ∨ (∃ l, s.inputs = .boundary :: l) ∨
      (∃ x l, s.inputs = .feed x :: l)) →
    step s = exec (decodeByte c b) { s with rq := r }) ∧
  (∀ (s : State) (c : Ctx) (b : Byte) (r : List Byte) (l : List Input), s.ctx = some c → s.rq = b :: r →
    s.inputs = .gap :: l → step s = exec (decodeByte c b) { s with rq := r, inputs := l })

/-- RQ.TAKE runs iff the queue holds a byte; IN.TAKE and FEED run iff it is empty (42_stream_interface.md R121,
42_stream_interface.md R123). -/
def Obligations.IntakeIsEnabledByTheQueueAlone : Prop :=
  ∀ s : State, s.Inv →
    ((∃ t, exec .rqTake s = .next t) ↔ s.rq ≠ []) ∧
    (∀ b : Byte, (∃ t, exec (.inTake b) s = .next t) ↔ s.rq = []) ∧
    (∀ x : List Byte, (∃ t, exec (.feed x) s = .next t) ↔ s.rq = [])

/-- A quiescent block with nothing offered changes nothing (42_stream_interface.md R122, 60_exceptions.md R178).
-/
def Obligations.QuiescentBlockWaits : Prop :=
  ∀ s : State, s.rq = [] →
    (s.inputs = [] → step s = .next s.quiet) ∧
    (∀ l, s.inputs = .gap :: l ∨ s.inputs = .boundary :: l → step s = .next { s.quiet with inputs := l })

/-- A byte is taken exactly when in_valid and in_ready are both 1; otherwise it stays offered
(42_stream_interface.md R116, 42_stream_interface.md R117, 70_reset_and_hazards.md R192). -/
def Obligations.OfferedByteIsHeldUntilReady : Prop :=
  ∀ (s : State) (b : Byte) (rest : List Input), s.Inv → s.inputs = .offer b :: rest →
    s.offered = some b ∧
    (s.inReady = true → ∃ t, step s = .next t ∧ t.inputs = rest ∧
      exec (.inTake b) { s with inputs := rest } = .next t) ∧
    (s.inReady = false → ∃ t, step s = .next t ∧ t.inputs = .offer b :: rest ∧ exec .rqTake s = .next t)

/-- A transaction happens in, and only in, an ACC.EMIT step, at most one per step, and the sink takes it
(42_stream_interface.md R118). -/
def Obligations.OutputComesOnlyFromAccEmit : Prop :=
  ∀ (i : Instr) (b : Byte) (s t : State), encode i = [b] → exec i s = .next t →
    (t.out.isSome = true ↔ i = .accEmit b) ∧ t.sink = s.sink ++ t.out.toList

/-- No step changes a frame already emitted (20_memory.md R43, 10_state.md R34). -/
def Obligations.SinkIsNeverRewritten : Prop :=
  ∀ s t : State, step s = .next t → s.sink <+: t.sink

/-- At most one error kind per step: SyncNoise only in Idle, ZeroLength only in LengthPending, ChecksumMismatch
only in Accumulating (R168). -/
def Obligations.ErrorKindsAreExclusiveByState : Prop :=
  ∀ (i : Instr) (b : Byte) (s t : State) (k : ErrorKind), encode i = [b] → exec i s = .next t → t.raised = some k →
    t.st = .idle ∧ t.out = none ∧
    ((s.st = .idle ∧ k.code = 1 ∧ k = .syncNoise b) ∨
     (s.st = .lengthPending ∧ k.code = 2 ∧ k = .zeroLength s.idReg) ∨
     (s.st = .accumulating ∧ k.code = 3 ∧ ∃ f, k = .checksumMismatch (f ++ [b])))

/-- The complete transition relation of st (40_frame_decoder.md R93). -/
def Obligations.TransitionTableOfTheDecoderState : Prop :=
  (∀ (i : Instr) (b : Byte) (s t : State), encode i = [b] → exec i s = .next t →
    (s.st, i, t.st) ∈ [(.idle, .idNoise b, .idle), (.idle, .idAccept b, .lengthPending),
      (.lengthPending, .lenZero b, .idle), (.lengthPending, .lenAccept b, .accumulating),
      (.accumulating, .accStore b, .accumulating), (.accumulating, .accEmit b, .idle),
      (.accumulating, .accRewind b, .idle)]) ∧
  (∀ s t : State, exec .reset s = .next t → t.st = .idle)

/-- Only ACC.REWIND adds to rq, at the front; only RQ.TAKE and RESET remove from it (R45, R46). -/
def Obligations.QueueChangesOnlyByRewindTakeAndReset : Prop :=
  (∀ (i : Instr) (b : Byte) (s t : State), encode i = [b] → exec i s = .next t →
    (i ≠ .accRewind b → t.rq = s.rq) ∧
    (i = .accRewind b → ∃ f, s.candidate b = some f ∧ f.length = s.blen.toNat ∧
      t.rq = f.drop 2 ++ s.rq ∧ (f.drop 2).length = s.lenReg.toNat)) ∧
  (∀ (l : List Byte) (s t : State), exec (.chkSum l) s = .next t ∨ exec (.chkValidate l) s = .next t → t.rq = s.rq) ∧
  (∀ (b : Byte) (s t : State), exec (.inTake b) s = .next t → ∃ i, encode i = [b] ∧ exec i s = .next t) ∧
  (∀ s t : State, exec .rqTake s = .next t →
    ∃ b r i, s.rq = b :: r ∧ encode i = [b] ∧ exec i { s with rq := r } = .next t) ∧
  (∀ s : State, ∃ t, exec .reset s = .next t ∧ t.rq = [])

/-- Bytes that do not fill the buffer are stored as by one copy (40_frame_decoder.md R95). -/
def Obligations.BulkStoreEqualsByteByByte : Prop :=
  ∀ (s : State) (bs x : List Byte), s.Inv → s.st = .accumulating → s.rq = [] → s.collected = some bs →
    s.fill.toNat + x.length < s.blen.toNat →
    ∃ t, exec (.feed x) s = .next t ∧ t.st = .accumulating ∧ t.lenReg = s.lenReg ∧
      t.fill.toNat = s.fill.toNat + x.length ∧ t.collected = some (bs ++ x) ∧ t.rq = [] ∧ t.sink = s.sink

/-- blen is len_reg + 2 without wrapping, between 2 and 257 (R26). -/
def Obligations.BlenIsLengthPlusTwoExactly : Prop :=
  ∀ s : State, s.blen.toNat = s.lenReg.toNat + 2 ∧ s.blen.toNat ≤ 257 ∧
    (s.lenReg ≠ 0#8 → 3 ≤ s.blen.toNat) ∧ (s.lenReg = 0xFF#8 → s.blen.toNat = 257)

/-- Two states of the invariant with the same abstract view are the same architectural state, and conversely
(10_state.md R22, 10_state.md R21). -/
def Obligations.AbstractViewCarriesTheSameInformation : Prop :=
  ∀ s t : State, s.Inv → t.Inv → s.inputs = t.inputs →
    ((s.dec = t.dec ∧ s.rq = t.rq) ↔ SameArch s t)

/-- FEED of x ++ y equals FEED of x and then FEED of y (42_stream_interface.md R123, 00_scope.md R2). -/
def Obligations.FeedChunkingIsInvisible : Prop :=
  ∀ (s : State) (x y : List Byte), s.Inv → s.rq = [] →
    ∃ u v t, exec (.feed x) s = .next u ∧ exec (.feed y) u = .next v ∧
      exec (.feed (x ++ y)) s = .next t ∧ t.quiet = v.quiet

/-- After an Id and a zero byte the next byte is tested as a fresh Id (40_frame_decoder.md R88,
95_test_vectors.md S4). -/
def Obligations.ZeroLengthMakesTheNextByteAFreshId : Prop :=
  ∀ (s : State) (id : Byte), s.Inv → s.st = .idle → s.rq = [] → id &&& 0xF4#8 = 0#8 →
    ∃ t, exec (.feed [id, 0x00#8]) s = .next t ∧ t.st = .idle ∧ t.rq = [] ∧ t.sink = s.sink ∧
      ∀ b : Byte, (b &&& 0xF4#8 = 0#8 → ∃ u, exec (.idAccept b) t = .next u) ∧
        (b &&& 0xF4#8 ≠ 0#8 → ∃ u, exec (.idNoise b) t = .next u)

/-- A step fed from the queue never raises |rq| + r; one fed from the source leaves it at most len_reg
(20_memory.md R47). -/
def Obligations.QueueLoadNeverRisesInAReplay : Prop :=
  (∀ s t : State, s.Inv → exec .rqTake s = .next t → t.rq.length + t.pending ≤ s.rq.length + s.pending) ∧
  (∀ (s t : State) (b : Byte), s.Inv → exec (.inTake b) s = .next t →
    (t.st = .accumulating ∧ t.rq.length + t.pending ≤ t.lenReg.toNat) ∨
    (s.st = .accumulating ∧ t.st = .idle ∧ t.out = none ∧ t.rq.length + t.pending = s.lenReg.toNat) ∨
    (t.st ≠ .accumulating ∧ t.rq.length + t.pending = 0))

/-- For a clean stream the number of steps is exactly the number of bytes (70_reset_and_hazards.md R199,
42_stream_interface.md R127). -/
def Obligations.CleanStreamTakesOneStepPerByte : Prop :=
  ∀ (s : State) (fs : List (List Byte)), s.Inv → s.st = .idle → s.rq = [] →
    (∀ f ∈ fs, frameWF f = true) → s.inputs = fs.flatten.map .offer →
    ∃ t, run fs.flatten.length s = .next t ∧ t.inputs = [] ∧ t.rq = [] ∧ t.st = .idle ∧
      t.sink = s.sink ++ fs.map mkTxn

/-- Burst boundaries and pauses of the source do not change the frames or the end state (00_scope.md R2,
42_stream_interface.md R126, 42_stream_interface.md R121). -/
def Obligations.StepsOnACutStreamAgreeWithScan : Prop :=
  ∀ s : State, s.Inv → (∀ x ∈ s.inputs, (∃ b, x = .offer b) ∨ x = .gap ∨ x = .boundary) →
    ∃ k t, run k s = .next t ∧ t.inputs = [] ∧ t.rq = [] ∧
      t.sink = s.sink ++ (decodeStream (s.held ++ s.inputs.filterMap Input.offeredByte)).map mkTxn ∧
      t.dec = (scan (s.held ++ s.inputs.filterMap Input.offeredByte)).2
end

