-- ==== Sys2Proof/Laws/State.lean ====
section
/-! SUPPORT. One lemma per field per named update of State, and what a derived operand makes of the updates. -/

namespace Sys2Proof.Machine

@[simp] theorem State.quiet_st (s : State) : s.quiet.st = s.st := rfl
@[simp] theorem State.quiet_idReg (s : State) : s.quiet.idReg = s.idReg := rfl
@[simp] theorem State.quiet_lenReg (s : State) : s.quiet.lenReg = s.lenReg := rfl
@[simp] theorem State.quiet_fill (s : State) : s.quiet.fill = s.fill := rfl
@[simp] theorem State.quiet_buf (s : State) : s.quiet.buf = s.buf := rfl
@[simp] theorem State.quiet_rq (s : State) : s.quiet.rq = s.rq := rfl
@[simp] theorem State.quiet_out (s : State) : s.quiet.out = none := rfl
@[simp] theorem State.quiet_raised (s : State) : s.quiet.raised = none := rfl
@[simp] theorem State.quiet_fn (s : State) : s.quiet.fn = none := rfl
@[simp] theorem State.quiet_sink (s : State) : s.quiet.sink = s.sink := rfl
@[simp] theorem State.quiet_inputs (s : State) : s.quiet.inputs = s.inputs := rfl
@[simp] theorem State.quiet_draws (s : State) : s.quiet.draws = s.draws := rfl

@[simp] theorem State.emit_st (s : State) (f : List Byte) : (s.emit f).st = s.st := rfl
@[simp] theorem State.emit_idReg (s : State) (f : List Byte) : (s.emit f).idReg = s.idReg := rfl
@[simp] theorem State.emit_lenReg (s : State) (f : List Byte) : (s.emit f).lenReg = s.lenReg := rfl
@[simp] theorem State.emit_fill (s : State) (f : List Byte) : (s.emit f).fill = s.fill := rfl
@[simp] theorem State.emit_buf (s : State) (f : List Byte) : (s.emit f).buf = s.buf := rfl
@[simp] theorem State.emit_rq (s : State) (f : List Byte) : (s.emit f).rq = s.rq := rfl
@[simp] theorem State.emit_out (s : State) (f : List Byte) : (s.emit f).out = some (mkTxn f) := rfl
@[simp] theorem State.emit_raised (s : State) (f : List Byte) : (s.emit f).raised = s.raised := rfl
@[simp] theorem State.emit_fn (s : State) (f : List Byte) : (s.emit f).fn = s.fn := rfl
@[simp] theorem State.emit_sink (s : State) (f : List Byte) : (s.emit f).sink = s.sink ++ [mkTxn f] := rfl
@[simp] theorem State.emit_inputs (s : State) (f : List Byte) : (s.emit f).inputs = s.inputs := rfl
@[simp] theorem State.emit_draws (s : State) (f : List Byte) : (s.emit f).draws = s.draws := rfl

@[simp] theorem State.raise_st (s : State) (k : ErrorKind) : (s.raise k).st = s.st := rfl
@[simp] theorem State.raise_idReg (s : State) (k : ErrorKind) : (s.raise k).idReg = s.idReg := rfl
@[simp] theorem State.raise_lenReg (s : State) (k : ErrorKind) : (s.raise k).lenReg = s.lenReg := rfl
@[simp] theorem State.raise_fill (s : State) (k : ErrorKind) : (s.raise k).fill = s.fill := rfl
@[simp] theorem State.raise_buf (s : State) (k : ErrorKind) : (s.raise k).buf = s.buf := rfl
@[simp] theorem State.raise_rq (s : State) (k : ErrorKind) : (s.raise k).rq = s.rq := rfl
@[simp] theorem State.raise_out (s : State) (k : ErrorKind) : (s.raise k).out = s.out := rfl
@[simp] theorem State.raise_raised (s : State) (k : ErrorKind) : (s.raise k).raised = some k := rfl
@[simp] theorem State.raise_fn (s : State) (k : ErrorKind) : (s.raise k).fn = s.fn := rfl
@[simp] theorem State.raise_sink (s : State) (k : ErrorKind) : (s.raise k).sink = s.sink := rfl
@[simp] theorem State.raise_inputs (s : State) (k : ErrorKind) : (s.raise k).inputs = s.inputs := rfl
@[simp] theorem State.raise_draws (s : State) (k : ErrorKind) : (s.raise k).draws = s.draws := rfl

@[simp] theorem State.dropId_st (s : State) : s.dropId.st = s.st := rfl
@[simp] theorem State.dropId_idReg (s : State) : s.dropId.idReg = Config.deadId s.draws := rfl
@[simp] theorem State.dropId_lenReg (s : State) : s.dropId.lenReg = s.lenReg := rfl
@[simp] theorem State.dropId_fill (s : State) : s.dropId.fill = s.fill := rfl
@[simp] theorem State.dropId_buf (s : State) : s.dropId.buf = s.buf := rfl
@[simp] theorem State.dropId_rq (s : State) : s.dropId.rq = s.rq := rfl
@[simp] theorem State.dropId_out (s : State) : s.dropId.out = s.out := rfl
@[simp] theorem State.dropId_raised (s : State) : s.dropId.raised = s.raised := rfl
@[simp] theorem State.dropId_fn (s : State) : s.dropId.fn = s.fn := rfl
@[simp] theorem State.dropId_sink (s : State) : s.dropId.sink = s.sink := rfl
@[simp] theorem State.dropId_inputs (s : State) : s.dropId.inputs = s.inputs := rfl
@[simp] theorem State.dropId_draws (s : State) : s.dropId.draws = s.draws + 1 := rfl

@[simp] theorem State.dropFrame_st (s : State) : s.dropFrame.st = s.st := rfl
@[simp] theorem State.dropFrame_idReg (s : State) : s.dropFrame.idReg = s.idReg := rfl
@[simp] theorem State.dropFrame_lenReg (s : State) : s.dropFrame.lenReg = Config.deadLen s.draws := rfl
@[simp] theorem State.dropFrame_fill (s : State) : s.dropFrame.fill = Config.deadFill s.draws := rfl
@[simp] theorem State.dropFrame_buf (s : State) : s.dropFrame.buf = [] := rfl
@[simp] theorem State.dropFrame_rq (s : State) : s.dropFrame.rq = s.rq := rfl
@[simp] theorem State.dropFrame_out (s : State) : s.dropFrame.out = s.out := rfl
@[simp] theorem State.dropFrame_raised (s : State) : s.dropFrame.raised = s.raised := rfl
@[simp] theorem State.dropFrame_fn (s : State) : s.dropFrame.fn = s.fn := rfl
@[simp] theorem State.dropFrame_sink (s : State) : s.dropFrame.sink = s.sink := rfl
@[simp] theorem State.dropFrame_inputs (s : State) : s.dropFrame.inputs = s.inputs := rfl
@[simp] theorem State.dropFrame_draws (s : State) : s.dropFrame.draws = s.draws + 1 := rfl

@[simp] theorem State.reset_st : State.reset.st = .idle := rfl
@[simp] theorem State.reset_idReg : State.reset.idReg = 0#8 := rfl
@[simp] theorem State.reset_lenReg : State.reset.lenReg = 0#8 := rfl
@[simp] theorem State.reset_fill : State.reset.fill = 0#9 := rfl
@[simp] theorem State.reset_buf : State.reset.buf = [] := rfl
@[simp] theorem State.reset_rq : State.reset.rq = [] := rfl
@[simp] theorem State.reset_out : State.reset.out = none := rfl
@[simp] theorem State.reset_raised : State.reset.raised = none := rfl
@[simp] theorem State.reset_fn : State.reset.fn = none := rfl
@[simp] theorem State.reset_sink : State.reset.sink = [] := rfl
@[simp] theorem State.reset_inputs : State.reset.inputs = [] := rfl
@[simp] theorem State.reset_draws : State.reset.draws = 0 := rfl

/-! The derived operands read `st`, `len_reg`, `fill`, `buf` and `id_reg` only. -/

@[simp] theorem State.quiet_ctx (s : State) : s.quiet.ctx = s.ctx := rfl
@[simp] theorem State.quiet_dec (s : State) : s.quiet.dec = s.dec := rfl
@[simp] theorem State.quiet_collected (s : State) : s.quiet.collected = s.collected := rfl
@[simp] theorem State.quiet_pending (s : State) : s.quiet.pending = s.pending := rfl
@[simp] theorem State.quiet_inReady (s : State) : s.quiet.inReady = s.inReady := rfl
@[simp] theorem State.quiet_quiet (s : State) : s.quiet.quiet = s.quiet := rfl
@[simp] theorem State.ctx_rq (s : State) (rq : List Byte) : State.ctx { s with rq := rq } = s.ctx := rfl
@[simp] theorem State.ctx_inputs (s : State) (l : List Input) : State.ctx { s with inputs := l } = s.ctx := rfl
@[simp] theorem State.collected_rq (s : State) (rq : List Byte) :
    State.collected { s with rq := rq } = s.collected := rfl
@[simp] theorem State.candidate_rq (s : State) (rq : List Byte) (b : Byte) :
    State.candidate { s with rq := rq } b = s.candidate b := rfl
@[simp] theorem State.dec_rq (s : State) (rq : List Byte) : State.dec { s with rq := rq } = s.dec := rfl
@[simp] theorem State.dec_inputs (s : State) (l : List Input) : State.dec { s with inputs := l } = s.dec := rfl
@[simp] theorem State.pending_rq (s : State) (rq : List Byte) : State.pending { s with rq := rq } = s.pending := rfl
@[simp] theorem State.pending_inputs (s : State) (l : List Input) :
    State.pending { s with inputs := l } = s.pending := rfl

/-- `in_ready` is 1 exactly when the queue is empty (R116). -/
@[simp] theorem State.inReady_iff (s : State) : s.inReady = true ↔ s.rq = [] := by
  simp [State.inReady]

end Sys2Proof.Machine
end

