-- ==== Sys2Proof/Laws/Checksum.lean ====
section
/-! SUPPORT. The small laws of the Id test, the Length test, `sum8`, `valid`, `blen` and the output transaction. -/

namespace Sys2Proof

/-- The Id test is the test of the reserved bits `0xF4` (R64). -/
theorem idTest_iff (b : Byte) : idTest b = true ↔ b &&& 0xF4#8 = 0#8 := by
  simp [idTest, Config.idReservedMask, Config.idValidMask, Config.categoryMask, Config.errorMask,
    Config.acceptCategoryZero]

theorem idTest_false_iff (b : Byte) : idTest b = false ↔ b &&& 0xF4#8 ≠ 0#8 := by
  rw [← Bool.not_eq_true, idTest_iff]

/-- The Length test is `b != 0x00` (R88, R89). -/
theorem lenTest_iff (b : Byte) : lenTest b = true ↔ b ≠ 0#8 := by
  rw [lenTest, decide_eq_true_iff, Config.lenMin, ne_eq, ← BitVec.toNat_inj, BitVec.toNat_ofNat]
  omega

theorem lenTest_false_iff (b : Byte) : lenTest b = false ↔ b = 0#8 := by
  rw [← Bool.not_eq_true, lenTest_iff, not_not]

end Sys2Proof

namespace Sys2Proof.Machine

/-- The word type has the widths of R8: `BYTE_W` for a symbol, `SUM_W` for the checksum. -/
theorem byte_width : Byte = BitVec Config.byteW ∧ Byte = BitVec Config.sumW := ⟨rfl, rfl⟩

/-- R8's constraints between the sizes: `FRAME_MAX` is the buffer's size, `RQ_DEPTH` is `LEN_MAX`. -/
theorem sizes : Config.frameMin = 3 ∧ Config.frameMax = 257 ∧ Config.bufSize = 257 ∧ Config.rqDepth = 255 :=
  ⟨rfl, rfl, rfl, rfl⟩

@[simp] theorem sum8_nil : sum8 [] = 0#8 := rfl

@[simp] theorem sum8_cons (b : Byte) (s : List Byte) : sum8 (b :: s) = b + sum8 s := by
  apply BitVec.eq_of_toNat_eq
  simp [sum8, BitVec.toNat_add]

@[simp] theorem valid?_nil : valid? [] = none := rfl

@[simp] theorem valid?_concat (s : List Byte) (x : Byte) : valid? (s ++ [x]) = some (x == sum8 s) := by
  simp [valid?]

/-- `errFlag` is bit 3 (R118). -/
theorem errFlag_eq (id : Byte) : errFlag id = id.getLsbD 3 := by
  revert id; decide

@[simp] theorem mkTxn_frame (f : List Byte) : (mkTxn f).frame = f := rfl

/-- `blen` never wraps (R26). -/
theorem State.blen_le (s : State) : s.blen.toNat ≤ 257 := by
  have := s.lenReg.isLt
  simp [State.blen, BitVec.toNat_add, BitVec.toNat_setWidth]
  omega

end Sys2Proof.Machine
end

