-- ==== Sys2Proof/Laws/Memory.lean ====
section
/-! SUPPORT. The laws of the frame buffer and of the replay queue: read after write, the canonical form, slices. -/

namespace Sys2Proof.Machine

@[simp] theorem Memory.read_nil (a : Nat) : Memory.read [] a = none := rfl

@[simp] theorem Memory.read_write_same (m : List Host.Cell) (a : Nat) (v : Byte) :
    Memory.read (Memory.write m a v) a = some v := by
  induction m with
  | nil => simp [Memory.write, Memory.read]
  | cons c m ih =>
    obtain ⟨k, w⟩ := c
    simp only [Memory.write]
    split
    · simp [Memory.read]
    · split
      · simp [Memory.read]
      · simp [Memory.read, *]

theorem Memory.read_write_ne (m : List Host.Cell) {a c : Nat} (v : Byte) (h : c ≠ a) :
    Memory.read (Memory.write m a v) c = Memory.read m c := by
  induction m with
  | nil => simp [Memory.write, Memory.read, h]
  | cons e m ih =>
    obtain ⟨k, w⟩ := e
    simp only [Memory.write]
    split
    · simp [Memory.read, h]
    · split
      · subst_vars; simp [Memory.read, h]
      · simp [Memory.read, ih]

theorem Memory.wfFrom_mono {lo lo' : Nat} (m : List Host.Cell) (h : lo' ≤ lo)
    (hm : Memory.wfFrom lo m = true) : Memory.wfFrom lo' m = true := by
  cases m with
  | nil => rfl
  | cons c m =>
    obtain ⟨k, w⟩ := c
    simp only [Memory.wfFrom, Bool.and_eq_true, decide_eq_true_eq] at hm ⊢
    exact ⟨⟨by omega, hm.1.2⟩, hm.2⟩

theorem Memory.wfFrom_write {lo : Nat} (m : List Host.Cell) (a : Nat) (v : Byte) (ha : a < Config.bufSize)
    (hlo : lo ≤ a) (hm : Memory.wfFrom lo m = true) : Memory.wfFrom lo (Memory.write m a v) = true := by
  induction m generalizing lo with
  | nil => simp [Memory.write, Memory.wfFrom, ha, hlo]
  | cons c m ih =>
    obtain ⟨k, w⟩ := c
    simp only [Memory.wfFrom, Bool.and_eq_true, decide_eq_true_eq] at hm
    simp only [Memory.write]
    split
    · simp only [Memory.wfFrom, Bool.and_eq_true, decide_eq_true_eq]
      exact ⟨⟨hlo, ha⟩, ⟨by omega, hm.1.2⟩, hm.2⟩
    · split
      · subst_vars
        simp only [Memory.wfFrom, Bool.and_eq_true, decide_eq_true_eq]
        exact ⟨⟨hlo, ha⟩, hm.2⟩
      · simp only [Memory.wfFrom, Bool.and_eq_true, decide_eq_true_eq]
        exact ⟨hm.1, ih (by omega) hm.2⟩

/-- A store inside the buffer's address space keeps the canonical form. -/
theorem Memory.wf_write (m : List Host.Cell) (a : Nat) (v : Byte) (ha : a < Config.bufSize)
    (hm : Memory.wf m = true) : Memory.wf (Memory.write m a v) = true :=
  Memory.wfFrom_write m a v ha (Nat.zero_le a) hm

theorem Memory.wf_nil : Memory.wf [] = true := rfl

theorem Memory.reset_wf : Memory.wf State.reset.buf = true := rfl

theorem Memory.read_none_below {lo : Nat} (m : List Host.Cell) (hm : Memory.wfFrom lo m = true) {a : Nat}
    (h : a < lo) : Memory.read m a = none := by
  induction m generalizing lo with
  | nil => rfl
  | cons c m ih =>
    obtain ⟨k, w⟩ := c
    simp only [Memory.wfFrom, Bool.and_eq_true, decide_eq_true_eq] at hm
    have hk : a ≠ k := by omega
    simp only [Memory.read, hk, if_false]
    exact ih hm.2 (by omega)

theorem Memory.wfFrom_ext {lo : Nat} (m n : List Host.Cell) (hm : Memory.wfFrom lo m = true)
    (hn : Memory.wfFrom lo n = true) (h : ∀ a, Memory.read m a = Memory.read n a) : m = n := by
  induction m generalizing lo n with
  | nil =>
    cases n with
    | nil => rfl
    | cons c n => have := h c.1; simp [Memory.read] at this
  | cons c m ih =>
    obtain ⟨k, w⟩ := c
    simp only [Memory.wfFrom, Bool.and_eq_true, decide_eq_true_eq] at hm
    cases n with
    | nil => have := h k; simp [Memory.read] at this
    | cons d n =>
      obtain ⟨j, u⟩ := d
      simp only [Memory.wfFrom, Bool.and_eq_true, decide_eq_true_eq] at hn
      have hkj : k = j := by
        rcases Nat.lt_trichotomy k j with hlt | heq | hgt
        · have := h k
          simp [Memory.read, Nat.ne_of_lt hlt, Memory.read_none_below n hn.2 (show k < j + 1 by omega)] at this
        · exact heq
        · have := h j
          simp [Memory.read, Nat.ne_of_lt hgt, Memory.read_none_below m hm.2 (show j < k + 1 by omega)] at this
      subst hkj
      have hw : w = u := by simpa [Memory.read] using h k
      subst hw
      congr 1
      refine ih n hm.2 hn.2 fun a => ?_
      by_cases hak : a = k
      · subst hak
        rw [Memory.read_none_below m hm.2 (Nat.lt_succ_self a), Memory.read_none_below n hn.2 (Nat.lt_succ_self a)]
      · simpa [Memory.read, hak] using h a

/-- Buffers in canonical form that read alike are the same data. -/
theorem Memory.wf_ext (m n : List Host.Cell) (hm : Memory.wf m = true) (hn : Memory.wf n = true)
    (h : ∀ a, Memory.read m a = Memory.read n a) : m = n := Memory.wfFrom_ext m n hm hn h

@[simp] theorem Memory.readRange_zero (m : List Host.Cell) (a : Nat) : Memory.readRange m a 0 = some [] := rfl

/-- A slice is `bs` exactly when each of its cells reads as the byte of `bs` in its place. -/
theorem Memory.readRange_eq_some {m : List Host.Cell} {a n : Nat} {bs : List Byte} :
    Memory.readRange m a n = some bs ↔ bs.length = n ∧ ∀ i (h : i < bs.length), Memory.read m (a + i) = some bs[i] := by
  induction n generalizing a bs with
  | zero =>
    simp only [Memory.readRange, Option.some.injEq, List.length_eq_zero_iff]
    constructor
    · rintro rfl; simp
    · rintro ⟨rfl, -⟩; rfl
  | succ n ih =>
    simp only [Memory.readRange]
    cases bs with
    | nil =>
      simp only [List.length_nil, Nat.not_lt_zero, Nat.zero_ne_add_one, false_and, iff_false]
      split <;> simp
    | cons b bs =>
      constructor
      · intro h
        split at h
        · rename_i v vs hv hvs
          simp only [Option.some.injEq, List.cons.injEq] at h
          obtain ⟨rfl, rfl⟩ := h
          obtain ⟨hl, hr⟩ := ih.1 hvs
          refine ⟨by simp [hl], fun i hi => ?_⟩
          cases i with
          | zero => simpa using hv
          | succ i =>
            have := hr i (by simpa using hi)
            rw [show a + (i + 1) = a + 1 + i by omega]
            simpa using this
        · simp at h
      · rintro ⟨hl, hr⟩
        have h0 : Memory.read m a = some b := hr 0 (Nat.succ_pos _)
        have hs : Memory.readRange m (a + 1) n = some bs := by
          refine ih.2 ⟨by simpa using hl, fun i hi => ?_⟩
          have := hr (i + 1) (by simpa using hi)
          rw [show a + 1 + i = a + (i + 1) by omega]
          simpa using this
        simp [h0, hs]

/-- A slice reads if every cell of it holds a value. -/
theorem Memory.readRange_isSome {m : List Host.Cell} {a n : Nat}
    (h : ∀ i, i < n → (Memory.read m (a + i)).isSome = true) : ∃ bs, Memory.readRange m a n = some bs := by
  induction n generalizing a with
  | zero => exact ⟨[], rfl⟩
  | succ n ih =>
    obtain ⟨v, hv⟩ := Option.isSome_iff_exists.1 (h 0 (Nat.succ_pos n))
    obtain ⟨vs, hvs⟩ := ih (a := a + 1) fun i hi => by
      rw [show a + 1 + i = a + (i + 1) by omega]; exact h (i + 1) (by omega)
    exact ⟨v :: vs, by simp only [Memory.readRange, Nat.add_zero] at hv ⊢; simp [hv, hvs]⟩

/-- Storing one byte just after a slice makes the slice one byte longer. -/
theorem Memory.readRange_write_end {m : List Host.Cell} {n : Nat} {bs : List Byte} (v : Byte)
    (h : Memory.readRange m 0 n = some bs) :
    Memory.readRange (Memory.write m n v) 0 (n + 1) = some (bs ++ [v]) := by
  obtain ⟨hl, hr⟩ := Memory.readRange_eq_some.1 h
  refine Memory.readRange_eq_some.2 ⟨by simp [hl], fun i hi => ?_⟩
  rw [Nat.zero_add]
  by_cases hin : i = n
  · subst hin
    simp [← hl]
  · have hi' : i < bs.length := by simp at hi; omega
    rw [Memory.read_write_ne m v hin, List.getElem_append_left hi']
    simpa using hr i hi'

/-- The canonical buffer that lists exactly the cells `0 .. n - 1`, extended by the cell `n`. -/
theorem Memory.isSome_write (m : List Host.Cell) (n : Nat) (v : Byte)
    (h : ∀ a, (Memory.read m a).isSome = true ↔ a < n) :
    ∀ a, (Memory.read (Memory.write m n v) a).isSome = true ↔ a < n + 1 := by
  intro a
  by_cases ha : a = n
  · subst ha; simp
  · rw [Memory.read_write_ne m v ha, h a]; omega

@[simp] theorem Queue.pop_nil : Queue.pop [] = none := rfl
@[simp] theorem Queue.pop_cons (b : Byte) (rq : List Byte) : Queue.pop (b :: rq) = some (b, rq) := rfl

@[simp] theorem Queue.pushFront_eq (bytes rq : List Byte) : Queue.pushFront bytes rq = bytes ++ rq := rfl

end Sys2Proof.Machine
end

