-- ==== Sys2Proof/Laws/Ops.lean ====
section
/-! SUPPORT. What each shared operation can do, said once: the selection condition, the guard of a byte
operation, a consumed byte, byte intake, the drain, the burst, reset and the step. -/

namespace Sys2Proof.Machine

/-! ### The selection condition -/

theorem State.ctx_idle {s : State} (h : s.st = .idle) : s.ctx = some .idle := by
  simp [State.ctx, h]

theorem State.ctx_lengthPending {s : State} (h : s.st = .lengthPending) : s.ctx = some .lengthPending := by
  simp [State.ctx, h]

theorem State.ctx_storing {s : State} (h : s.st = .accumulating) (hf : s.fill.toNat + 1 < s.blen.toNat) :
    s.ctx = some .storing := by
  simp [State.ctx, h, hf]

theorem State.ctx_full {s : State} {bs : List Byte} (h : s.st = .accumulating)
    (hf : s.fill.toNat + 1 = s.blen.toNat) (hc : s.collected = some bs) : s.ctx = some (.full (sum8 bs)) := by
  simp [State.ctx, h, hf, hc]

/-- The four conditions of R71's table. -/
theorem State.ctx_cases {s : State} {c : Ctx} (h : s.ctx = some c) :
    (s.st = .idle ∧ c = .idle) ∨ (s.st = .lengthPending ∧ c = .lengthPending) ∨
    (s.st = .accumulating ∧ s.fill.toNat + 1 < s.blen.toNat ∧ c = .storing) ∨
    (s.st = .accumulating ∧ s.fill.toNat + 1 = s.blen.toNat ∧
      ∃ bs, s.collected = some bs ∧ c = .full (sum8 bs)) := by
  unfold State.ctx at h
  split at h
  · exact .inl ⟨‹_›, by simpa using h.symm⟩
  · exact .inr (.inl ⟨‹_›, by simpa using h.symm⟩)
  · split at h
    · exact .inr (.inr (.inl ⟨‹_›, ‹_›, by simpa using h.symm⟩))
    · split at h
      · obtain ⟨bs, hbs, rfl⟩ := Option.map_eq_some_iff.1 h
        exact .inr (.inr (.inr ⟨‹_›, ‹_›, bs, hbs, rfl⟩))
      · cases h

/-- The byte that fills the buffer completes the candidate: the bytes collected, then the byte (R91). -/
theorem State.candidate_of_collected {s : State} {bs : List Byte} (b : Byte)
    (hf : s.fill.toNat + 1 = s.blen.toNat) (hc : s.collected = some bs) : s.candidate b = some (bs ++ [b]) := by
  rw [State.candidate, State.stored, ← hf]
  exact Memory.readRange_write_end b hc

theorem State.collected_length {s : State} {bs : List Byte} (hc : s.collected = some bs) :
    bs.length = s.fill.toNat := (Memory.readRange_eq_some.1 hc).1

/-! ### The guard of a byte operation -/

theorem onSelected_eq {i : Instr} {b : Byte} {s : State} {c : Ctx} {r : Host.Outcome State Fault Refusal}
    (h : s.ctx = some c) (hd : decodeByte c b = i) : onSelected i b s r = r := by
  simp [onSelected, h, hd]

theorem onSelected_next {i : Instr} {b : Byte} {s t : State} {r : Host.Outcome State Fault Refusal}
    (h : onSelected i b s r = .next t) : (∃ c, s.ctx = some c ∧ decodeByte c b = i) ∧ r = .next t := by
  unfold onSelected at h
  split at h
  · cases h
  · split at h
    · exact ⟨⟨_, ‹_›, ‹_›⟩, h⟩
    · cases h

/-! ### A consumed byte -/

/-- What consuming byte `b` can do (R86 to R92), one constructor per operation. -/
inductive Consumed (b : Byte) (s : State) : State → Prop where
  | idNoise (hst : s.st = .idle) (hb : idTest b = false) : Consumed b s (s.quiet.raise (.syncNoise b))
  | idAccept (hst : s.st = .idle) (hb : idTest b = true) :
      Consumed b s { s.quiet with idReg := b, st := .lengthPending }
  | lenZero (hst : s.st = .lengthPending) (hb : lenTest b = false) :
      Consumed b s { (s.quiet.raise (.zeroLength s.idReg)).dropId with st := .idle }
  | lenAccept (hst : s.st = .lengthPending) (hb : lenTest b = true) :
      Consumed b s { s.quiet.dropId with
        lenReg := b
        buf := Memory.write (Memory.write s.buf 0 s.idReg) 1 b
        fill := 2#9
        st := .accumulating }
  | accStore (hst : s.st = .accumulating) (hf : s.fill.toNat + 1 < s.blen.toNat) :
      Consumed b s { s.quiet with buf := s.stored b, fill := s.fill + 1#9 }
  | accEmit (bs : List Byte) (hst : s.st = .accumulating) (hf : s.fill.toNat + 1 = s.blen.toNat)
      (hc : s.collected = some bs) (hb : b = sum8 bs) :
      Consumed b s { (s.quiet.emit (bs ++ [b])).dropFrame with st := .idle }
  | accRewind (bs : List Byte) (hst : s.st = .accumulating) (hf : s.fill.toNat + 1 = s.blen.toNat)
      (hc : s.collected = some bs) (hb : b ≠ sum8 bs) :
      Consumed b s { (s.quiet.raise (.checksumMismatch (bs ++ [b]))).dropFrame with
        rq := (bs ++ [b]).drop 2 ++ s.rq
        st := .idle }

/-- `consume b` answers the next state `t` exactly in these seven cases. -/
theorem consume_iff (b : Byte) (s t : State) : consume b s = .next t ↔ Consumed b s t := by
  constructor
  · intro h
    unfold consume at h
    split at h
    · cases h
    · rename_i c hc
      rcases State.ctx_cases hc with ⟨hst, rfl⟩ | ⟨hst, rfl⟩ | ⟨hst, hf, rfl⟩ | ⟨hst, hf, bs, hbs, rfl⟩
      · simp only [decodeByte] at h
        split at h
        · obtain ⟨-, h⟩ := onSelected_next h
          cases h; exact .idAccept hst ‹_›
        · obtain ⟨-, h⟩ := onSelected_next h
          cases h; exact .idNoise hst (Bool.eq_false_iff.2 ‹_›)
      · simp only [decodeByte] at h
        split at h
        · obtain ⟨-, h⟩ := onSelected_next h
          cases h; exact .lenAccept hst ‹_›
        · obtain ⟨-, h⟩ := onSelected_next h
          cases h; exact .lenZero hst (Bool.eq_false_iff.2 ‹_›)
      · obtain ⟨-, h⟩ := onSelected_next h
        cases h; exact .accStore hst hf
      · simp only [decodeByte] at h
        split at h
        · obtain ⟨-, h⟩ := onSelected_next h
          rw [State.candidate_of_collected b hf hbs] at h
          cases h; exact .accEmit bs hst hf hbs ‹_›
        · obtain ⟨-, h⟩ := onSelected_next h
          rw [State.candidate_of_collected b hf hbs] at h
          cases h; exact .accRewind bs hst hf hbs ‹_›
  · rintro (⟨hst, hb⟩ | ⟨hst, hb⟩ | ⟨hst, hb⟩ | ⟨hst, hb⟩ | ⟨hst, hf⟩ | ⟨bs, hst, hf, hc, hb⟩ |
      ⟨bs, hst, hf, hc, hb⟩)
    · have hx := State.ctx_idle hst
      simp only [consume, hx, decodeByte, hb, Bool.false_eq_true, if_false, runByteOp, execIdNoise]
      exact onSelected_eq hx (by simp [decodeByte, hb])
    · have hx := State.ctx_idle hst
      simp only [consume, hx, decodeByte, hb, if_true, runByteOp, execIdAccept]
      exact onSelected_eq hx (by simp [decodeByte, hb])
    · have hx := State.ctx_lengthPending hst
      simp only [consume, hx, decodeByte, hb, Bool.false_eq_true, if_false, runByteOp, execLenZero]
      exact onSelected_eq hx (by simp [decodeByte, hb])
    · have hx := State.ctx_lengthPending hst
      simp only [consume, hx, decodeByte, hb, if_true, runByteOp, execLenAccept]
      exact onSelected_eq hx (by simp [decodeByte, hb])
    · have hx := State.ctx_storing hst hf
      simp only [consume, hx, decodeByte, runByteOp, execAccStore]
      exact onSelected_eq hx rfl
    · have hx := State.ctx_full hst hf hc
      simp only [consume, hx, decodeByte, ← hb, if_true, runByteOp, execAccEmit]
      rw [onSelected_eq hx (by simp [decodeByte, ← hb]), State.candidate_of_collected b hf hc]
    · have hx := State.ctx_full hst hf hc
      simp only [consume, hx, decodeByte, hb, if_false, runByteOp, execAccRewind]
      rw [onSelected_eq hx (by simp [decodeByte, hb]), State.candidate_of_collected b hf hc]
      rfl

/-- A byte read by the dispatch of R71 is a byte operation, so exec runs what `consume` runs. -/
theorem runByteOp_decodeByte (c : Ctx) (b : Byte) (s : State) :
    runByteOp (decodeByte c b) s = exec (decodeByte c b) s := by
  cases c <;> simp only [decodeByte] <;> (try split) <;> rfl

theorem consume_eq_exec {s : State} {c : Ctx} (b : Byte) (h : s.ctx = some c) :
    consume b s = exec (decodeByte c b) s := by
  simp only [consume, h, runByteOp_decodeByte]

/-! ### Byte intake -/

theorem execInTake_of_ready {s : State} (b : Byte) (h : s.rq = []) : execInTake b s = consume b s := by
  simp [execInTake, h]

theorem execInTake_next {s t : State} {b : Byte} (h : execInTake b s = .next t) :
    s.rq = [] ∧ Consumed b s t := by
  unfold execInTake at h
  split at h
  · exact ⟨by simpa using ‹s.inReady = true›, (consume_iff b s t).1 h⟩
  · cases h

theorem execRqTake_cons {s : State} {b : Byte} {rq : List Byte} (h : s.rq = b :: rq) :
    execRqTake s = consume b { s with rq := rq } := by
  simp [execRqTake, h]

theorem execRqTake_next {s t : State} (h : execRqTake s = .next t) :
    ∃ b rq, s.rq = b :: rq ∧ Consumed b { s with rq := rq } t := by
  unfold execRqTake at h
  split at h
  · cases h
  · rename_i b rq hq
    refine ⟨b, rq, ?_, (consume_iff b _ t).1 h⟩
    cases hs : s.rq with
    | nil => simp [hs] at hq
    | cons x xs => simp [hs] at hq; simp [hq]

/-! ### The drain and the burst -/

/-- With an empty queue the drain does nothing, whatever its fuel. -/
theorem drain_of_ready (n : Nat) {s : State} (h : s.rq = []) : drain n s = .next s := by
  cases n <;> simp [drain, h]

/-- A relation that every `RQ.TAKE` step keeps and that is reflexive holds across a drain. -/
theorem drain_next_rel {R : State → State → Prop} (hrefl : ∀ s, R s s)
    (hstep : ∀ s u t, execRqTake s = .next u → R u t → R s t) {n : Nat} {s t : State}
    (h : drain n s = .next t) : t.rq = [] ∧ R s t := by
  induction n generalizing s with
  | zero =>
    unfold drain at h
    split at h
    · rename_i hr; cases h; exact ⟨by simpa using hr, hrefl _⟩
    · cases h
  | succ n ih =>
    unfold drain at h
    split at h
    · rename_i hr; cases h; exact ⟨by simpa using hr, hrefl _⟩
    · split at h
      · obtain ⟨h1, h2⟩ := ih h
        exact ⟨h1, hstep _ _ _ ‹_› h2⟩
      · cases h
      · cases h

theorem feedBytes_nil (s : State) : feedBytes [] s = .next s := rfl

theorem feedBytes_cons_next {b : Byte} {bs : List Byte} {s t : State} (h : feedBytes (b :: bs) s = .next t) :
    ∃ u v, execInTake b s = .next u ∧ drain Config.drainBound u = .next v ∧ feedBytes bs v = .next t := by
  unfold feedBytes at h
  split at h
  · rename_i v hv
    unfold feedByte at hv
    split at hv
    · exact ⟨_, v, ‹_›, hv, h⟩
    · cases hv
    · cases hv
  · cases h
  · cases h

theorem execFeed_of_ready {s : State} (bs : List Byte) (h : s.rq = []) : execFeed bs s = feedBytes bs s.quiet := by
  simp [execFeed, h]

theorem execFeed_next {s t : State} {bs : List Byte} (h : execFeed bs s = .next t) :
    s.rq = [] ∧ feedBytes bs s.quiet = .next t := by
  unfold execFeed at h
  split at h
  · exact ⟨by simpa using ‹s.inReady = true›, h⟩
  · cases h

/-! ### The step -/

theorem step_run {s : State} {i : Instr} {rest : List Input} (h : selectPort s.rq s.inputs = .run i rest) :
    step s = exec i { s with inputs := rest } := by
  simp [step, h]

theorem step_idle {s : State} {rest : List Input} (h : selectPort s.rq s.inputs = .idle rest) :
    step s = .next { s.quiet with inputs := rest } := by
  simp [step, h]

/-- With a byte in the queue the ports select `RQ.TAKE`, unless a reset or a pure function is asked for. -/
theorem selectPort_queue {rq : List Byte} (hq : rq ≠ []) (l : List Input) :
    (∃ rest, l = .reset :: rest ∧ selectPort rq l = .run .reset rest) ∨
    (∃ s rest, l = .evalSum s :: rest ∧ selectPort rq l = .run (.chkSum s) rest) ∨
    (∃ s rest, l = .evalValid s :: rest ∧ selectPort rq l = .run (.chkValidate s) rest) ∨
    (∃ rest, selectPort rq l = .run .rqTake rest ∧ (rest = l ∨ l = .gap :: rest)) := by
  cases l with
  | nil => simp [selectPort, hq]
  | cons x l => cases x <;> simp [selectPort, hq]

/-- With an empty queue the ports select nothing, or what the first move of the outside asks for. -/
theorem selectPort_empty (l : List Input) :
    (selectPort [] l = .idle [] ∧ l = []) ∨
    (∃ rest, selectPort [] l = .idle rest ∧ (l = .gap :: rest ∨ l = .boundary :: rest)) ∨
    (∃ x i rest, l = x :: rest ∧ request i = some x ∧ selectPort [] l = .run i rest) := by
  cases l with
  | nil => exact .inl ⟨rfl, rfl⟩
  | cons x l =>
    cases x with
    | offer b => exact .inr (.inr ⟨_, .inTake b, l, rfl, rfl, rfl⟩)
    | gap => exact .inr (.inl ⟨l, rfl, .inl rfl⟩)
    | boundary => exact .inr (.inl ⟨l, rfl, .inr rfl⟩)
    | reset => exact .inr (.inr ⟨_, .reset, l, rfl, rfl, rfl⟩)
    | feed s => exact .inr (.inr ⟨_, .feed s, l, rfl, rfl, rfl⟩)
    | evalSum s => exact .inr (.inr ⟨_, .chkSum s, l, rfl, rfl, rfl⟩)
    | evalValid s => exact .inr (.inr ⟨_, .chkValidate s, l, rfl, rfl, rfl⟩)

/-- What a step can do: run the operation the ports select, or wait. -/
theorem step_cases {s t : State} (h : step s = .next t) :
    (∃ i rest, selectPort s.rq s.inputs = .run i rest ∧ exec i { s with inputs := rest } = .next t) ∨
    (∃ rest, selectPort s.rq s.inputs = .idle rest ∧ t = { s.quiet with inputs := rest }) := by
  unfold step at h
  split at h
  · exact .inl ⟨_, _, ‹_›, h⟩
  · cases h; exact .inr ⟨_, ‹_›, rfl⟩

/-- The word placed by the loader is the byte the next step consumes. -/
theorem step_withFetchWord (s : State) (nbits w : Nat) :
    step (s.withFetchWord nbits w) = consume (tableByte w) { s with rq := s.rq.tail } := by
  cases hq : s.rq with
  | nil =>
    have : ({ s with rq := [] } : State) = s := by rw [← hq]
    simp [step, State.withFetchWord, fetchWord, hq, selectPort, exec, execInTake, State.inReady, this]
  | cons b rq =>
    simp [step, State.withFetchWord, fetchWord, hq, selectPort, exec, execRqTake]

end Sys2Proof.Machine
end

