-- ==== Sys2Proof/Laws/PerInstr.lean ====
section
/-! SUPPORT. Statements made per operation: an operation is asked for by bytes or by a move of the outside,
never by both, and the only operation that neither asks for is the internal `RQ.TAKE` (R120). -/

namespace Sys2Proof.Laws.Asked

/-- One byte and no move, no byte and one move, or the internal operation. -/
def Statement (i : Instr) : Prop :=
  ((encode i).length = 1 ∧ request i = none) ∨ (encode i = [] ∧ ∃ x, request i = some x) ∨ i = .rqTake

theorem idAccept (b : Byte) : Statement (.idAccept b) := .inl ⟨rfl, rfl⟩
theorem idNoise (b : Byte) : Statement (.idNoise b) := .inl ⟨rfl, rfl⟩
theorem lenZero (b : Byte) : Statement (.lenZero b) := .inl ⟨rfl, rfl⟩
theorem lenAccept (b : Byte) : Statement (.lenAccept b) := .inl ⟨rfl, rfl⟩
theorem accStore (b : Byte) : Statement (.accStore b) := .inl ⟨rfl, rfl⟩
theorem accEmit (b : Byte) : Statement (.accEmit b) := .inl ⟨rfl, rfl⟩
theorem accRewind (b : Byte) : Statement (.accRewind b) := .inl ⟨rfl, rfl⟩
theorem chkSum (bytes : List Byte) : Statement (.chkSum bytes) := .inr (.inl ⟨rfl, _, rfl⟩)
theorem chkValidate (bytes : List Byte) : Statement (.chkValidate bytes) := .inr (.inl ⟨rfl, _, rfl⟩)
theorem inTake (inData : Byte) : Statement (.inTake inData) := .inr (.inl ⟨rfl, _, rfl⟩)
theorem rqTake : Statement .rqTake := .inr (.inr rfl)
theorem feed (burst : List Byte) : Statement (.feed burst) := .inr (.inl ⟨rfl, _, rfl⟩)
theorem reset : Statement .reset := .inr (.inl ⟨rfl, _, rfl⟩)

end Sys2Proof.Laws.Asked
end

