-- ==== Sys2Proof/Tests/Slice0.lean ====
section
/-! SUPPORT. The model's own tests: ill-formed operations refused, words written out from the spec's table,
one step per operation with the results of 95_test_vectors.md, and for every statement with hypotheses a
concrete state and operands that meet them. -/

namespace Sys2Proof.Tests

open Sys2Proof.Machine

/-! ### Small states -/

/-- `p` holds of the next state. -/
def nextHas (o : Host.Outcome State Fault Refusal) (p : State → Bool) : Bool :=
  match o with
  | .next t => p t
  | .fault _ => false
  | .refused _ => false

/-- The bytes `bs` in the cells from `k` on. -/
def cells : Nat → List Byte → List Host.Cell
  | _, [] => []
  | k, b :: bs => (k, b) :: cells (k + 1) bs

/-- `Idle` with queue `rq`. -/
def idleSt (rq : List Byte) : State := { State.reset with rq := rq }

/-- `LengthPending(id)` with queue `rq`. -/
def lenSt (id : Byte) (rq : List Byte) : State := { State.reset with st := .lengthPending, idReg := id, rq := rq }

/-- `Accumulating` with `buf[0..fill) = id :: len :: rest` and queue `rq`. -/
def accSt (id len : Byte) (rest rq : List Byte) : State :=
  { State.reset with
    st := .accumulating
    lenReg := len
    fill := BitVec.ofNat 9 (rest.length + 2)
    buf := cells 0 (id :: len :: rest)
    rq := rq }

theorem cells_read (k : Nat) (bs : List Byte) (a : Nat) :
    (Memory.read (cells k bs) a).isSome = true ↔ k ≤ a ∧ a < k + bs.length := by
  induction bs generalizing k with
  | nil => simp only [cells, Memory.read, List.length_nil, Option.isSome_none]; constructor
           · simp
           · omega
  | cons b bs ih =>
    simp only [cells, Memory.read, List.length_cons]
    split
    · subst_vars; simp
    · rw [ih]; omega

theorem cells_wf (k : Nat) (bs : List Byte) (h : k + bs.length ≤ 257) : Memory.wfFrom k (cells k bs) = true := by
  induction bs generalizing k with
  | nil => rfl
  | cons b bs ih =>
    simp only [List.length_cons] at h
    have := ih (k + 1) (by omega)
    simp only [cells, Memory.wfFrom, Bool.and_eq_true, decide_eq_true_eq]
    exact ⟨⟨le_rfl, by simp only [Config.bufSize, Config.frameMax, Config.lenMax]; omega⟩, this⟩

theorem idleSt_inv (rq : List Byte) (h : rq.length ≤ 255) : (idleSt rq).Inv :=
  ⟨rfl, rfl, by simpa [idleSt, State.pending, Config.rqDepth, Config.lenMax] using h, rfl⟩

theorem lenSt_inv (id : Byte) (rq : List Byte) (hid : idTest id = true) (h : rq.length ≤ 255) : (lenSt id rq).Inv :=
  ⟨rfl, ⟨rfl, hid⟩, by simpa [lenSt, State.pending, Config.rqDepth, Config.lenMax] using h, rfl⟩

theorem accSt_inv (id len : Byte) (rest rq : List Byte) (hid : idTest id = true) (hl : rest.length < len.toNat)
    (hq : rq.length + rest.length ≤ 255) : (accSt id len rest rq).Inv := by
  have hlt := len.isLt
  have hf : (accSt id len rest rq).fill.toNat = rest.length + 2 := by simp [accSt]; omega
  refine ⟨cells_wf 0 _ (by simp; omega), ?_, ?_, rfl⟩
  · show _ ∧ _
    simp only [hf]
    refine ⟨by simp [accSt]; omega, by omega, by simp [accSt]; omega, ⟨id, rfl, hid⟩, rfl, fun a => ?_⟩
    rw [show (accSt id len rest rq).buf = cells 0 (id :: len :: rest) from rfl, cells_read]
    simp only [List.length_cons]
    omega
  · simp [State.pending, accSt, Config.rqDepth, Config.lenMax] at hf ⊢
    omega

/-! ### Ill-formed operations are refused by the check -/

theorem test_wf_idAccept : (Instr.idAccept 0x04#8).wf = false := by decide
theorem test_wf_idNoise : (Instr.idNoise 0x08#8).wf = false := by decide
theorem test_wf_lenZero : (Instr.lenZero 0x01#8).wf = false := by decide
theorem test_wf_lenAccept : (Instr.lenAccept 0x00#8).wf = false := by decide
theorem test_wf_chkValidate : (Instr.chkValidate []).wf = false := by decide
theorem test_wf_evalValid : (Input.evalValid []).wf = false := by decide

/-! ### Words written out from opcode_table.json and 95_test_vectors.md sections 3.1 to 3.3 -/

theorem test_word_idAccept : decode .idle [0b00001011#8] = .op (.idAccept 0x0B#8) [] := by decide
theorem test_word_idAccept_category_zero : decode .idle [0b00000000#8] = .op (.idAccept 0x00#8) [] := by decide
theorem test_word_idNoise_bit2 : decode .idle [0b00000100#8] = .op (.idNoise 0x04#8) [] := by decide
theorem test_word_idNoise_bit7 : decode .idle [0b10000000#8] = .op (.idNoise 0x80#8) [] := by decide
theorem test_word_lenZero : decode .lengthPending [0b00000000#8] = .op (.lenZero 0x00#8) [] := by decide
theorem test_word_lenAccept : decode .lengthPending [0b00000011#8, 0x20#8] = .op (.lenAccept 0x03#8) [0x20#8] := by decide
theorem test_word_accStore : decode .storing [0b00000001#8] = .op (.accStore 0x01#8) [] := by decide
theorem test_word_accEmit : decode (.full 0x11#8) [0b00010001#8] = .op (.accEmit 0x11#8) [] := by decide
theorem test_word_accRewind : decode (.full 0x04#8) [0b00000101#8] = .op (.accRewind 0x05#8) [] := by decide
theorem test_word_none : decode .storing [] = .reject .noByte := by decide
theorem test_encode_idAccept : encode (.idAccept 0x0A#8) = [0x0A#8] := by decide
theorem test_table_word : decodeTableWord 8 0xF4 = some (.idNoise 0xF4#8) := by decide
theorem test_select_inTake : selectPort [] [.offer 0xFF#8] = .run (.inTake 0xFF#8) [] := by decide
theorem test_select_rqTake : selectPort [0x20#8] [.offer 0x02#8] = .run .rqTake [.offer 0x02#8] := by decide
theorem test_select_reset : selectPort [0x20#8] [.reset, .offer 0x02#8] = .run .reset [.offer 0x02#8] := by decide
theorem test_select_feed : selectPort [] [.feed [0x01#8]] = .run (.feed [0x01#8]) [] := by decide

/-! ### One step per operation; results from 95_test_vectors.md sections 3.1 to 3.6 -/

theorem test_idAccept : nextHas (exec (.idAccept 0x0A#8) (idleSt [])) (fun t =>
    t.st == .lengthPending && t.idReg == 0x0A#8) = true := by decide
theorem test_idNoise : nextHas (exec (.idNoise 0x0C#8) (idleSt [])) (fun t =>
    t.st == .idle && t.raised == some (.syncNoise 0x0C#8)) = true := by decide
theorem test_lenZero : nextHas (exec (.lenZero 0x00#8) (lenSt 0x01#8 [])) (fun t =>
    t.st == .idle && t.rq == [] && t.raised == some (.zeroLength 0x01#8)) = true := by decide
theorem test_lenAccept_FF : nextHas (exec (.lenAccept 0xFF#8) (lenSt 0x01#8 [])) (fun t =>
    t.st == .accumulating && t.blen.toNat == 257 && t.fill == 2#9 && t.collected == some [0x01#8, 0xFF#8]) = true := by
  decide
theorem test_accStore : nextHas (exec (.accStore 0x20#8) (accSt 0x01#8 0x04#8 [] [])) (fun t =>
    t.fill == 3#9 && t.collected == some [0x01#8, 0x04#8, 0x20#8]) = true := by decide
theorem test_accEmit : nextHas (exec (.accEmit 0x11#8) (accSt 0x0A#8 0x05#8 [0x2A#8, 0x02#8, 0xD2#8, 0x04#8] []))
    (fun t => t.st == .idle && t.out == some
      { frame := [0x0A#8, 0x05#8, 0x2A#8, 0x02#8, 0xD2#8, 0x04#8, 0x11#8], len := 7#9, err := true }) = true := by decide
theorem test_accEmit_sum_wraps : nextHas (exec (.accEmit 0x06#8) (accSt 0x02#8 0x04#8 [0xF0#8, 0xF0#8, 0x20#8] []))
    (fun t => t.sink == [{ frame := [0x02#8, 0x04#8, 0xF0#8, 0xF0#8, 0x20#8, 0x06#8], len := 6#9, err := false }]) = true := by
  decide
theorem test_accRewind : nextHas (exec (.accRewind 0x2C#8) (accSt 0x01#8 0x04#8 [0x20#8, 0x01#8, 0x05#8] [0x77#8]))
    (fun t => t.st == .idle && t.out == none && t.rq == [0x20#8, 0x01#8, 0x05#8, 0x2C#8, 0x77#8]) = true := by decide
theorem test_accRewind_length_one : nextHas (exec (.accRewind 0x05#8) (accSt 0x03#8 0x01#8 [] [])) (fun t =>
    t.rq == [0x05#8]) = true := by decide
theorem test_accStore_not_selected : exec (.accStore 0x04#8) (accSt 0x03#8 0x01#8 [] []) = .refused .notSelected := by rfl
theorem test_chkSum : nextHas (exec (.chkSum [0xFF#8, 0xFF#8, 0xFF#8]) (idleSt [])) (fun t =>
    t.fn == some (.sum 0xFD#8)) = true := by decide
theorem test_chkSum_wraps_to_zero : nextHas (exec (.chkSum [0xFF#8, 0x01#8]) (idleSt [])) (fun t =>
    t.fn == some (.sum 0x00#8)) = true := by decide
theorem test_chkValidate : nextHas (exec (.chkValidate [0x01#8, 0x05#8, 0x20#8, 0x01#8, 0x05#8, 0x2C#8]) (idleSt []))
    (fun t => t.fn == some (.valid true)) = true := by decide
theorem test_chkValidate_one_byte : nextHas (exec (.chkValidate [0x01#8]) (idleSt [])) (fun t =>
    t.fn == some (.valid false)) = true := by decide
theorem test_inTake : nextHas (exec (.inTake 0x00#8) (lenSt 0x01#8 [])) (fun t => t.st == .idle) = true := by decide
theorem test_inTake_not_ready : exec (.inTake 0x02#8) (idleSt [0x20#8]) = .refused .notEnabled := by rfl
theorem test_rqTake : nextHas (exec .rqTake (idleSt [0x20#8, 0x01#8, 0x07#8, 0x2B#8])) (fun t =>
    t.st == .idle && t.rq == [0x01#8, 0x07#8, 0x2B#8]) = true := by decide
theorem test_rqTake_pop_before_rewind : nextHas (exec .rqTake (accSt 0x03#8 0x01#8 [] [0x05#8, 0x06#8])) (fun t =>
    t.rq == [0x05#8, 0x06#8]) = true := by decide
theorem test_feed : nextHas (exec (.feed [0x01#8, 0x00#8, 0x03#8, 0x01#8, 0x04#8]) (idleSt [])) (fun t =>
    t.st == .idle && t.sink == [{ frame := [0x03#8, 0x01#8, 0x04#8], len := 3#9, err := false }]) = true := by decide
theorem test_feed_drains : nextHas (exec (.feed [0x05#8]) (accSt 0x03#8 0x01#8 [] [])) (fun t =>
    t.st == .idle && t.rq == [] && t.sink == []) = true := by decide
theorem test_reset : nextHas (exec .reset (accSt 0x01#8 0x04#8 [0x20#8, 0x01#8] [0x05#8])) (fun t =>
    t.st == .idle && t.rq == [] && t.out == none) = true := by decide
theorem test_step_fetches_word : nextHas (step (State.reset.withFetchWord 8 0x0A)) (fun t =>
    t.st == .lengthPending && t.idReg == 0x0A#8 && t.inputs == []) = true := by decide
theorem test_step_queue_first : nextHas (step { idleSt [0x20#8] with inputs := [.offer 0x02#8] }) (fun t =>
    t.rq == [] && t.inputs == [.offer 0x02#8]) = true := by decide
theorem test_step_reset_in_replay : nextHas (step { idleSt [0x03#8, 0x01#8, 0x04#8] with inputs := [.reset] }) (fun t =>
    t.rq == [] && t.sink == []) = true := by decide

/-! ### The hypotheses of the statements are met -/

theorem witness_IdNoise : (idleSt [0x01#8]).st = .idle ∧ 0x04#8 &&& 0xF4#8 ≠ 0#8 := by decide
theorem witness_IdAccept : (idleSt [0x01#8]).st = .idle ∧ 0x00#8 &&& 0xF4#8 = 0#8 := by decide
theorem witness_LenZero : (lenSt 0x0B#8 []).st = .lengthPending := by decide
theorem witness_LenAccept : (lenSt 0x0B#8 []).st = .lengthPending ∧ (0xFF#8 : Byte) ≠ 0x00#8 := by decide
theorem witness_AccStore : (accSt 0x01#8 0x02#8 [] []).st = .accumulating ∧
    (accSt 0x01#8 0x02#8 [] []).fill.toNat + 1 < (accSt 0x01#8 0x02#8 [] []).blen.toNat := by decide
/-- The shortest frame, Length 1: the byte after Length completes it. -/
theorem witness_AccEmit : (accSt 0x03#8 0x01#8 [] []).st = .accumulating ∧
    (accSt 0x03#8 0x01#8 [] []).fill.toNat + 1 = (accSt 0x03#8 0x01#8 [] []).blen.toNat ∧
    (accSt 0x03#8 0x01#8 [] []).collected = some [0x03#8, 0x01#8] ∧
    (0x04#8 : Byte).toNat = ([0x03#8, 0x01#8].map BitVec.toNat).sum % 256 := by decide
/-- The longest frame, Length 255: the 257th byte completes it. -/
theorem witness_AccRewind_longest : (accSt 0x03#8 0xFF#8 (List.replicate 254 0x00#8) []).Inv ∧
    (accSt 0x03#8 0xFF#8 (List.replicate 254 0x00#8) []).st = .accumulating ∧
    (accSt 0x03#8 0xFF#8 (List.replicate 254 0x00#8) []).fill.toNat + 1 =
      (accSt 0x03#8 0xFF#8 (List.replicate 254 0x00#8) []).blen.toNat :=
  ⟨accSt_inv _ _ _ _ (by decide) (by rw [List.length_replicate]; decide) (by rw [List.length_replicate]; decide), rfl, by
    show (BitVec.ofNat 9 ((List.replicate 254 0x00#8).length + 2)).toNat + 1 = _
    rw [List.length_replicate]; decide⟩
theorem witness_AccRewind : (accSt 0x03#8 0x01#8 [] [0x77#8]).Inv ∧ (accSt 0x03#8 0x01#8 [] [0x77#8]).st = .accumulating ∧
    (accSt 0x03#8 0x01#8 [] [0x77#8]).fill.toNat + 1 = (accSt 0x03#8 0x01#8 [] [0x77#8]).blen.toNat ∧
    (accSt 0x03#8 0x01#8 [] [0x77#8]).collected = some [0x03#8, 0x01#8] ∧
    (0x05#8 : Byte).toNat ≠ ([0x03#8, 0x01#8].map BitVec.toNat).sum % 256 :=
  ⟨accSt_inv _ _ _ _ (by decide) (by decide) (by decide), by decide, by decide, by decide, by decide⟩
/-- An invariant state in each decoder state, with an empty queue and with a full one. -/
theorem witness_Inv_empty_queue : (idleSt []).Inv ∧ (lenSt 0x08#8 []).Inv ∧ (accSt 0x01#8 0x04#8 [0x20#8] []).Inv :=
  ⟨idleSt_inv _ (by decide), lenSt_inv _ _ (by decide) (by decide), accSt_inv _ _ _ _ (by decide) (by decide) (by decide)⟩
theorem witness_Inv_full_queue : (idleSt (List.replicate 255 0xFF#8)).Inv ∧
    (accSt 0x01#8 0x04#8 [0x20#8] (List.replicate 254 0xFF#8)).Inv :=
  ⟨idleSt_inv _ (le_of_eq List.length_replicate),
    accSt_inv _ _ _ _ (by decide) (by decide) (by rw [List.length_replicate]; decide)⟩
/-- `InTakeConsumesTheOfferedByte`, `FeedIsTheLoopOverTheBurst`, `FeedContinuesScanFromTheHeldBytes`,
`FeedChunkingIsInvisible`: an invariant state with an empty queue. -/
theorem witness_intake : (accSt 0x01#8 0x04#8 [0x20#8] []).Inv ∧ (accSt 0x01#8 0x04#8 [0x20#8] []).rq = [] :=
  ⟨witness_Inv_empty_queue.2.2, rfl⟩
theorem witness_inTake_next : ∃ t, exec (.inTake 0x01#8) (idleSt []) = .next t := ⟨_, rfl⟩
theorem witness_RqTake : (lenSt 0x08#8 [0x00#8, 0x05#8]).Inv ∧ (lenSt 0x08#8 [0x00#8, 0x05#8]).rq = 0x00#8 :: [0x05#8] ∧
    ∃ t, exec .rqTake (lenSt 0x08#8 [0x00#8, 0x05#8]) = .next t :=
  ⟨lenSt_inv _ _ (by decide) (by decide), rfl, _, rfl⟩
/-- The seven rows of the dispatch table, each in a state and for a byte of its own. -/
theorem witness_dispatch_rows :
    (0x0C#8 &&& 0xF4#8 ≠ 0#8) ∧ (0x0B#8 &&& 0xF4#8 = 0#8) ∧ (lenSt 0x08#8 []).st = .lengthPending ∧
    (accSt 0x01#8 0xFF#8 [] []).fill.toNat + 1 < (accSt 0x01#8 0xFF#8 [] []).blen.toNat ∧
    (accSt 0x03#8 0x01#8 [] []).fill.toNat + 1 = (accSt 0x03#8 0x01#8 [] []).blen.toNat ∧
    0x04#8 = sum8 [0x03#8, 0x01#8] ∧ 0x05#8 ≠ sum8 [0x03#8, 0x01#8] := by decide
theorem witness_DecodeAndEncode : admits (.full 0x04#8) (.accEmit 0x04#8) = true ∧ (Instr.accEmit 0x04#8).wf = true ∧
    [0x04#8, 0x09#8] = encode (.accEmit 0x04#8) ++ [0x09#8] := by decide
theorem witness_PortRequest : request (.inTake 0x01#8) = some (.offer 0x01#8) := by decide
theorem witness_byte_values : (0x03#8 : Byte).toNat ≤ 0x03 ∧ 0x08 ≤ (0x08#8 : Byte).toNat ∧ (0x0B#8 : Byte).toNat ≤ 0x0B ∧
    0x04 ≤ (0x07#8 : Byte).toNat ∧ 0x0C ≤ (0x0C#8 : Byte).toNat := by decide
theorem witness_step_keeps : ∃ t, step (idleSt [0x20#8]) = .next t := ⟨_, rfl⟩
theorem witness_SinkReceives : (∀ o ∈ (idleSt [0x20#8]).sink, o.ok) ∧ (idleSt [0x20#8]).Inv :=
  ⟨by simp [idleSt], idleSt_inv _ (by decide)⟩
/-- A frame is emitted, so that what leaves is the frame; a byte is dropped, so that at most two leave. -/
theorem witness_held_emit : (∃ t, exec (.inTake 0x04#8) (accSt 0x03#8 0x01#8 [] []) = .next t ∧ t.out ≠ none) ∧
    (∃ t, exec (.inTake 0x04#8) (idleSt []) = .next t ∧ t.out = none) ∧
    (∃ t, exec .rqTake (accSt 0x03#8 0x01#8 [] [0x04#8]) = .next t ∧ t.out ≠ none) ∧
    (∃ t, exec .rqTake (accSt 0x03#8 0x01#8 [] [0x05#8]) = .next t ∧ t.out = none) :=
  ⟨⟨_, rfl, by decide⟩, ⟨_, rfl, rfl⟩, ⟨_, rfl, by decide⟩, ⟨_, rfl, rfl⟩⟩
theorem witness_ReplayDrains : (idleSt [0x01#8, 0x02#8]).Inv ∧ (idleSt [0x01#8, 0x02#8]).inputs = [] :=
  ⟨idleSt_inv _ (by decide), rfl⟩
theorem witness_CutStream : (State.Inv { accSt 0x01#8 0x04#8 [0x20#8] [0x01#8] with
      inputs := [.offer 0x05#8, .gap, .boundary, .offer 0x2B#8] }) ∧
    (∀ x ∈ [Input.offer 0x05#8, .gap, .boundary, .offer 0x2B#8], (∃ b, x = .offer b) ∨ x = .gap ∨ x = .boundary) := by
  have h := accSt_inv 0x01#8 0x04#8 [0x20#8] [0x01#8] (by decide) (by decide) (by decide)
  exact ⟨⟨h.bufWF, h.dec, h.bound, rfl⟩, by simp⟩
theorem witness_CleanStream : (∀ f ∈ [[0x03#8, 0x01#8, 0x04#8], [0x00#8, 0x01#8, 0x01#8]], frameWF f = true) ∧
    (State.Inv { idleSt [] with
      inputs := ([[0x03#8, 0x01#8, 0x04#8], [0x00#8, 0x01#8, 0x01#8]] : List (List Byte)).flatten.map .offer }) :=
  ⟨by decide, rfl, rfl, by decide, rfl⟩
theorem witness_Corruption : valid? [0x03#8, 0x01#8, 0x04#8] = some true ∧ 0 < [0x03#8, 0x01#8, 0x04#8].length ∧
    2 < [0x03#8, 0x01#8, 0x04#8].length ∧ (0x02#8 : Byte) ≠ 0x03#8 := by decide
theorem witness_Permutation : [0x01#8, 0x02#8].Perm [0x02#8, 0x01#8] := by decide
theorem witness_Mkframe : 0x0B#8 &&& 0xF4#8 = 0#8 ∧ (List.replicate 254 0x00#8).length ≤ 254 ∧
    frameWF [0x03#8, 0x01#8, 0x04#8] = true := ⟨by decide, le_of_eq List.length_replicate, by decide⟩
/-- Two states that differ in dead items only, and a step of the first. -/
theorem witness_SameArch : SameArch (idleSt [0x20#8])
      { idleSt [0x20#8] with idReg := 0x55#8, lenReg := 0x66#8, fill := 7#9, buf := [(3, 0x77#8)] } ∧
    ∃ t, step (idleSt [0x20#8]) = .next t :=
  ⟨⟨rfl, rfl, rfl, by simp [idleSt], by simp [idleSt], by simp [idleSt], by simp [idleSt]⟩, _, rfl⟩
theorem witness_SameArch_accumulating : SameArch (accSt 0x01#8 0x04#8 [] []) { accSt 0x01#8 0x04#8 [] [] with idReg := 0x55#8 } ∧
    (accSt 0x01#8 0x04#8 [] []).st = .accumulating :=
  ⟨⟨rfl, rfl, rfl, by simp [accSt], by simp, by simp, by simp⟩, rfl⟩
/-- The step's three ways to a byte: an offer, the queue with a byte still offered, the queue in a silence. -/
theorem witness_StepRuns : (idleSt []).ctx = some .idle ∧ (idleSt []).rq = [] ∧
    ({ idleSt [] with inputs := [.offer 0x01#8] } : State).inputs = .offer 0x01#8 :: [] ∧
    (idleSt [0x20#8]).rq = 0x20#8 :: [] ∧ (idleSt [0x20#8]).inputs = [] ∧
    ({ idleSt [0x20#8] with inputs := [.gap] } : State).inputs = .gap :: [] := by decide
theorem witness_Quiescent : (lenSt 0x01#8 []).rq = [] ∧ (lenSt 0x01#8 []).inputs = [] := by decide
theorem witness_OfferHeld : (State.Inv { idleSt [0x20#8] with inputs := [.offer 0x02#8] }) ∧
    (State.inReady { idleSt [0x20#8] with inputs := [.offer 0x02#8] }) = false ∧
    (State.Inv { idleSt [] with inputs := [.offer 0x02#8] }) ∧
    (State.inReady { idleSt [] with inputs := [.offer 0x02#8] }) = true :=
  ⟨⟨rfl, rfl, by decide, rfl⟩, rfl, ⟨rfl, rfl, by decide, rfl⟩, rfl⟩
theorem witness_byteOp_next : encode (.accEmit 0x04#8) = [0x04#8] ∧
    ∃ t, exec (.accEmit 0x04#8) (accSt 0x03#8 0x01#8 [] []) = .next t := ⟨rfl, _, rfl⟩
theorem witness_ErrorKinds :
    (∃ t, exec (.idNoise 0x20#8) (idleSt []) = .next t ∧ t.raised = some (.syncNoise 0x20#8)) ∧
    (∃ t, exec (.lenZero 0x00#8) (lenSt 0x01#8 []) = .next t ∧ t.raised = some (.zeroLength 0x01#8)) ∧
    (∃ t, exec (.accRewind 0x05#8) (accSt 0x03#8 0x01#8 [] []) = .next t ∧
      t.raised = some (.checksumMismatch ([0x03#8, 0x01#8] ++ [0x05#8]))) :=
  ⟨⟨_, rfl, rfl⟩, ⟨_, rfl, rfl⟩, ⟨_, rfl, rfl⟩⟩
theorem witness_reset_next : ∃ t, exec .reset (accSt 0x03#8 0x01#8 [] [0x05#8]) = .next t := ⟨_, rfl⟩
theorem witness_chk_next : (∃ t, exec (.chkSum []) (idleSt []) = .next t) ∧
    ∃ t, exec (.chkValidate [0x00#8]) (idleSt []) = .next t := ⟨⟨_, rfl⟩, ⟨_, rfl⟩⟩
/-- `fill + |x|` one less than `blen`: the last byte is still missing. -/
theorem witness_BulkStore : (accSt 0x01#8 0x04#8 [] []).Inv ∧ (accSt 0x01#8 0x04#8 [] []).collected = some [0x01#8, 0x04#8] ∧
    (accSt 0x01#8 0x04#8 [] []).fill.toNat + [0x20#8, 0x01#8, 0x05#8].length < (accSt 0x01#8 0x04#8 [] []).blen.toNat :=
  ⟨accSt_inv _ _ _ _ (by decide) (by decide) (by decide), by decide, by decide⟩
theorem witness_Blen : (accSt 0x01#8 0xFF#8 [] []).lenReg = 0xFF#8 ∧ (accSt 0x01#8 0x01#8 [] []).lenReg ≠ 0#8 := by decide
theorem witness_AbstractView : (idleSt [0x01#8]).Inv ∧ (State.Inv { idleSt [0x01#8] with idReg := 0x55#8 }) ∧
    (idleSt [0x01#8]).inputs = ({ idleSt [0x01#8] with idReg := 0x55#8 } : State).inputs :=
  ⟨idleSt_inv _ (by decide), ⟨rfl, rfl, by decide, rfl⟩, rfl⟩
theorem witness_ZeroLength : (idleSt []).Inv ∧ (idleSt []).st = .idle ∧ (idleSt []).rq = [] ∧ 0x08#8 &&& 0xF4#8 = 0#8 :=
  ⟨idleSt_inv _ (by decide), rfl, rfl, by decide⟩
/-- The three ways an `IN.TAKE` leaves the queue's load. -/
theorem witness_QueueLoad : (∃ t, exec (.inTake 0x04#8) (lenSt 0x01#8 []) = .next t ∧ t.st = .accumulating) ∧
    (∃ t, exec (.inTake 0x05#8) (accSt 0x03#8 0x01#8 [] []) = .next t ∧ t.st = .idle ∧ t.out = none) ∧
    (∃ t, exec (.inTake 0x04#8) (accSt 0x03#8 0x01#8 [] []) = .next t ∧ t.st ≠ .accumulating ∧ t.out ≠ none) :=
  ⟨⟨_, rfl, rfl⟩, ⟨_, rfl, rfl, rfl⟩, ⟨_, rfl, by decide, by decide⟩⟩

end Sys2Proof.Tests
end

/-!
# A stream cut by burst boundaries and pauses agrees with `Scan` (R2, R121, R126)

The block is followed step by step with one quantity that no step changes: the frames the sink holds
together with what `Scan` makes of the bytes held and still offered (`State.outlook`). A step that is not
yet quiescent lowers the number of moves left or, with the moves kept, the measure of R97; so the run ends
with an empty queue and no move left, where the outlook is the sink and the decoder state themselves.
-/

namespace Sys2Proof.Machine

/-! ### `Scan` by equations (R125) -/

/-- Any fuel that covers the sequence's length gives the same scan. -/
theorem scanFuel_congr {n m : Nat} {s : List Byte} (hn : s.length ≤ n) (hm : s.length ≤ m) :
    scanFuel n s = scanFuel m s := by
  induction n generalizing m s with
  | zero =>
    obtain rfl := List.length_eq_zero_iff.1 (Nat.le_zero.1 hn)
    cases m <;> rfl
  | succ n ih =>
    cases s with
    | nil => cases m <;> rfl
    | cons b s =>
      cases m with
      | zero => simp at hm
      | succ m =>
        simp only [List.length_cons, Nat.add_le_add_iff_right] at hn hm
        have shorter : ∀ r : List Byte, r.length ≤ s.length → scanFuel n r = scanFuel m r :=
          fun r hr => ih (hr.trans hn) (hr.trans hm)
        simp only [scanFuel, shorter s le_rfl]
        cases s with
        | nil => rfl
        | cons len rest =>
          have hdrop := (List.drop_sublist len.toNat rest).length_le
          simp only [shorter rest (Nat.le_succ _), shorter _ (hdrop.trans (Nat.le_succ _))]

theorem scanFuel_eq_scan {n : Nat} {s : List Byte} (h : s.length ≤ n) : scanFuel n s = scan s :=
  scanFuel_congr h le_rfl

@[simp] theorem scan_nil : scan [] = ([], .idle) := rfl

theorem scan_noise {b : Byte} (hb : idTest b = false) (s : List Byte) : scan (b :: s) = scan s := by
  simp [scan, scanFuel, hb]

theorem scan_lone_id {id : Byte} (hid : idTest id = true) : scan [id] = ([], .lengthPending id) := by
  simp [scan, scanFuel, hid]

theorem scan_zero_length {id len : Byte} (hid : idTest id = true) (hlen : lenTest len = false)
    (s : List Byte) : scan (id :: len :: s) = scan s := by
  rw [scan, List.length_cons]
  simp [scanFuel, hid, hlen, scanFuel_eq_scan]

theorem scan_incomplete {id len : Byte} {body : List Byte} (hid : idTest id = true)
    (hlen : lenTest len = true) (hbody : body.length < len.toNat) :
    scan (id :: len :: body) = ([], .accumulating (id :: len :: body)) := by
  simp [scan, scanFuel, hid, hlen, hbody]

/-- A complete valid candidate is delivered and the scan goes on after it. -/
theorem scan_valid {id len : Byte} {body : List Byte} (hid : idTest id = true)
    (hlen : lenTest len = true) (hbody : body.length = len.toNat)
    (hv : valid? (id :: len :: body) = some true) (s : List Byte) :
    scan (id :: len :: body ++ s) = ((id :: len :: body) :: (scan s).1, (scan s).2) := by
  have htail : scanFuel (body.length + s.length + 1) s = scan s := scanFuel_eq_scan (by omega)
  rw [scan, List.cons_append, List.cons_append, List.length_cons]
  simp [scanFuel, hid, hlen, ← hbody, hv, htail]

/-- After a complete candidate that is not valid the scan goes on right after its Length byte. -/
theorem scan_invalid {id len : Byte} {body : List Byte} (hid : idTest id = true)
    (hlen : lenTest len = true) (hbody : body.length = len.toNat)
    (hv : valid? (id :: len :: body) = some false) (s : List Byte) :
    scan (id :: len :: body ++ s) = scan (body ++ s) := by
  rw [scan, List.cons_append, List.cons_append, List.length_cons]
  simp [scanFuel, hid, hlen, ← hbody, hv, scanFuel_eq_scan]

/-! ### The invariant of the decoder, read off its state (R26, R36) -/

theorem State.blen_toNat (s : State) : s.blen.toNat = s.lenReg.toNat + 2 := by
  have := s.lenReg.isLt
  rw [State.blen, BitVec.toNat_add, BitVec.zeroExtend, BitVec.toNat_setWidth, BitVec.toNat_ofNat]
  omega

/-- The store before the last one does not wrap `fill`. -/
theorem State.fill_succ_toNat {s : State} (hf : s.fill.toNat + 1 < s.blen.toNat) :
    (s.fill + 1#9).toNat = s.fill.toNat + 1 := by
  have := s.blen_le
  rw [BitVec.toNat_add, BitVec.toNat_ofNat]
  omega

theorem State.decInv_idle {s : State} (h : s.st = .idle) : s.decInv ↔ s.buf = [] := by
  simp [State.decInv, h]

theorem State.decInv_lengthPending {s : State} (h : s.st = .lengthPending) :
    s.decInv ↔ s.buf = [] ∧ idTest s.idReg = true := by
  simp [State.decInv, h]

theorem State.decInv_accumulating {s : State} (h : s.st = .accumulating) :
    s.decInv ↔ 1 ≤ s.lenReg.toNat ∧ 2 ≤ s.fill.toNat ∧ s.fill.toNat ≤ s.lenReg.toNat + 1 ∧
      (∃ id, Memory.read s.buf 0 = some id ∧ idTest id = true) ∧
      Memory.read s.buf 1 = some s.lenReg ∧
      ∀ a, (Memory.read s.buf a).isSome = true ↔ a < s.fill.toNat := by
  simp [State.decInv, h]

theorem State.dec_idle {s : State} (h : s.st = .idle) : s.dec = .idle := by
  simp [State.dec, h]

theorem State.dec_lengthPending {s : State} (h : s.st = .lengthPending) :
    s.dec = .lengthPending s.idReg := by
  simp [State.dec, h]

theorem State.dec_accumulating {s : State} {bs : List Byte} (h : s.st = .accumulating)
    (hc : s.collected = some bs) : s.dec = .accumulating bs := by
  simp [State.dec, h, hc]

theorem State.pending_of_not_accumulating {s : State} (h : s.st ≠ .accumulating) : s.pending = 0 := by
  unfold State.pending
  split
  · contradiction
  · rfl

theorem State.pending_accumulating {s : State} (h : s.st = .accumulating) :
    s.pending = s.fill.toNat - 2 := by
  simp [State.pending, h]

theorem State.lacking_of_not_accumulating {s : State} (h : s.st ≠ .accumulating) : s.lacking = 0 := by
  unfold State.lacking
  split
  · contradiction
  · rfl

theorem State.lacking_accumulating {s : State} (h : s.st = .accumulating) :
    s.lacking = s.blen.toNat - s.fill.toNat := by
  simp [State.lacking, h]

/-- In `Accumulating` the collected bytes are an Id, the Length and fewer bytes than the Length asks for. -/
theorem State.decInv.collected_eq {s : State} (h : s.decInv) (hst : s.st = .accumulating) :
    ∃ id body, s.collected = some (id :: s.lenReg :: body) ∧ idTest id = true ∧
      lenTest s.lenReg = true ∧ body.length + 2 = s.fill.toNat ∧ body.length < s.lenReg.toNat := by
  obtain ⟨hlen, hfill, hfill', ⟨id, hid, hidTest⟩, hlenReg, hcells⟩ := (State.decInv_accumulating hst).1 h
  obtain ⟨bs, hbs⟩ : ∃ bs, s.collected = some bs :=
    Memory.readRange_isSome fun i hi => (hcells _).2 (by simpa using hi)
  obtain ⟨hlength, hread⟩ := Memory.readRange_eq_some.1 hbs
  match bs, hlength, hread with
  | b :: len :: body, hlength, hread =>
    have hb : b = id := Option.some.inj ((hread 0 (by simp)).symm.trans hid)
    have hl : len = s.lenReg := Option.some.inj ((hread 1 (by simp)).symm.trans hlenReg)
    subst hb hl
    simp only [List.length_cons] at hlength
    exact ⟨b, body, hbs, hidTest, decide_eq_true hlen, by omega, by omega⟩
  | [], hlength, _ => simp at hlength; omega
  | [_], hlength, _ => simp at hlength; omega

/-- The byte that fills the buffer completes a candidate with as many bytes as its Length asks for. -/
theorem State.decInv.candidate_eq {s : State} {bs : List Byte} (h : s.decInv) (hst : s.st = .accumulating)
    (hf : s.fill.toNat + 1 = s.blen.toNat) (hc : s.collected = some bs) (b : Byte) :
    ∃ id body, bs ++ [b] = id :: s.lenReg :: body ∧ idTest id = true ∧ lenTest s.lenReg = true ∧
      body.length = s.lenReg.toNat := by
  obtain ⟨id, body, hc', hid, hlen, hbody, -⟩ := h.collected_eq hst
  obtain rfl := Option.some.inj (hc.symm.trans hc')
  rw [s.blen_toNat] at hf
  exact ⟨id, body ++ [b], rfl, hid, hlen, by rw [List.length_append, List.length_singleton]; omega⟩

theorem State.decInv.fill_succ_le_blen {s : State} (h : s.decInv) (hst : s.st = .accumulating) :
    s.fill.toNat + 1 ≤ s.blen.toNat := by
  obtain ⟨-, -, hfill, -⟩ := (State.decInv_accumulating hst).1 h
  rw [s.blen_toNat]; omega

/-- The queue has room for the bytes collected after the Length and one more (R47). -/
theorem State.decInv.pending_lt {s : State} (h : s.decInv) : s.pending + 1 ≤ Config.rqDepth := by
  obtain ⟨-, -, -, hdepth⟩ := sizes
  by_cases hst : s.st = .accumulating
  · obtain ⟨-, -, hfill, -⟩ := (State.decInv_accumulating hst).1 h
    have := s.lenReg.isLt
    rw [State.pending_accumulating hst, hdepth]
    omega
  · rw [State.pending_of_not_accumulating hst, hdepth]
    omega

/-! ### What a consumed byte keeps (R85 to R92, R97, R125)

`s` is the state after the byte `b` has left its place (the source, or the head of the queue). -/

/-- Every byte is consumed (R93). -/
theorem State.decInv.exists_consumed {s : State} (h : s.decInv) (b : Byte) : ∃ t, Consumed b s t := by
  cases hst : s.st with
  | idle =>
    cases hb : idTest b with
    | false => exact ⟨_, .idNoise hst hb⟩
    | true => exact ⟨_, .idAccept hst hb⟩
  | lengthPending =>
    cases hb : lenTest b with
    | false => exact ⟨_, .lenZero hst hb⟩
    | true => exact ⟨_, .lenAccept hst hb⟩
  | accumulating =>
    obtain ⟨id, body, hc, -⟩ := h.collected_eq hst
    rcases (h.fill_succ_le_blen hst).lt_or_eq with hf | hf
    · exact ⟨_, .accStore hst hf⟩
    · by_cases hb : b = sum8 (id :: s.lenReg :: body)
      · exact ⟨_, .accEmit _ hst hf hc hb⟩
      · exact ⟨_, .accRewind _ hst hf hc hb⟩

/-- Outside an attempt the queue is the whole load of R47, and nothing is lacking (R97). -/
theorem State.load_le_of_not_accumulating {s t : State} (ht : t.st ≠ .accumulating) (hq : t.rq = s.rq) :
    t.rq.length + t.pending ≤ s.rq.length + s.pending ∧ t.lacking ≤ 255 := by
  rw [State.pending_of_not_accumulating ht, State.lacking_of_not_accumulating ht, hq]
  omega

namespace Consumed

variable {b : Byte} {s t : State}

theorem inputs_eq (h : Consumed b s t) : t.inputs = s.inputs := by
  cases h <;> rfl

theorem decInv (h : Consumed b s t) (hs : s.decInv) : t.decInv := by
  cases h with
  | idNoise hst => exact (State.decInv_idle hst).2 ((State.decInv_idle hst).1 hs)
  | idAccept hst hb => exact (State.decInv_lengthPending rfl).2 ⟨(State.decInv_idle hst).1 hs, hb⟩
  | lenZero hst => exact (State.decInv_idle rfl).2 ((State.decInv_lengthPending hst).1 hs).1
  | lenAccept hst hb =>
    obtain ⟨hbuf, hid⟩ := (State.decInv_lengthPending hst).1 hs
    have hlen : 1 ≤ b.toNat := of_decide_eq_true hb
    have hcells := Memory.isSome_write (Memory.write s.buf 0 s.idReg) 1 b
      (Memory.isSome_write s.buf 0 s.idReg (by simp [hbuf]))
    refine (State.decInv_accumulating rfl).2
      ⟨hlen, le_rfl, Nat.succ_le_succ hlen, ⟨s.idReg, ?_, hid⟩, Memory.read_write_same _ 1 b, hcells⟩
    exact (Memory.read_write_ne _ b Nat.zero_ne_one).trans (Memory.read_write_same s.buf 0 s.idReg)
  | accStore hst hf =>
    obtain ⟨hlen, hfill, -, ⟨id, hid, hidTest⟩, hlenReg, hcells⟩ := (State.decInv_accumulating hst).1 hs
    have hsucc := State.fill_succ_toNat hf
    rw [s.blen_toNat] at hf
    refine (State.decInv_accumulating ?_).2 ?_
    · exact hst
    simp only [hsucc, State.quiet_lenReg]
    exact ⟨hlen, by omega, by omega,
      ⟨id, (Memory.read_write_ne _ b (by omega)).trans hid, hidTest⟩,
      (Memory.read_write_ne _ b (by omega)).trans hlenReg, Memory.isSome_write _ _ b hcells⟩
  | accEmit => exact (State.decInv_idle rfl).2 rfl
  | accRewind => exact (State.decInv_idle rfl).2 rfl

theorem bufWF (h : Consumed b s t) (hs : Memory.wf s.buf = true) : Memory.wf t.buf = true := by
  obtain ⟨-, -, hsize, -⟩ := sizes
  cases h with
  | idNoise => exact hs
  | idAccept => exact hs
  | lenZero => exact hs
  | lenAccept =>
    exact Memory.wf_write _ 1 b (by omega) (Memory.wf_write _ 0 s.idReg (by omega) hs)
  | accStore hst hf =>
    have := s.blen_le
    exact Memory.wf_write _ _ b (by omega) hs
  | accEmit => rfl
  | accRewind => rfl

/-- Either the bytes queued and collected are no more than before, or they grew by the consumed byte and the
attempt lacks fewer bytes (R47, R97). -/
theorem load_cases (h : Consumed b s t) (hs : s.decInv) :
    (t.rq.length + t.pending ≤ s.rq.length + s.pending ∧ t.lacking ≤ 255) ∨
    (t.rq.length + t.pending = s.rq.length + s.pending + 1 ∧ t.lacking < s.lacking) := by
  cases h with
  | idNoise hst => exact .inl (State.load_le_of_not_accumulating (by simp [hst]) rfl)
  | idAccept => exact .inl (State.load_le_of_not_accumulating nofun rfl)
  | lenZero => exact .inl (State.load_le_of_not_accumulating nofun rfl)
  | lenAccept hst hb =>
    have := b.isLt
    left
    simp only [State.pending_accumulating, State.lacking_accumulating, State.blen_toNat, BitVec.toNat_ofNat,
      State.dropId_rq, State.quiet_rq]
    omega
  | accStore hst hf =>
    obtain ⟨-, hfill, -⟩ := (State.decInv_accumulating hst).1 hs
    right
    simp only [State.pending_accumulating, State.lacking_accumulating, hst, State.fill_succ_toNat hf,
      State.quiet_st, State.quiet_rq]
    simp only [State.blen_toNat, State.quiet_lenReg] at hf ⊢
    omega
  | accEmit => exact .inl (State.load_le_of_not_accumulating nofun rfl)
  | accRewind bs hst hf hc hb =>
    obtain ⟨-, hfill, -⟩ := (State.decInv_accumulating hst).1 hs
    have := State.collected_length hc
    right
    simp only [State.pending_of_not_accumulating, State.lacking_of_not_accumulating, State.pending_accumulating hst,
      State.lacking_accumulating hst, List.length_append, List.length_drop, List.length_singleton, ne_eq,
      reduceCtorEq, not_false_eq_true]
    omega

theorem replayMeasure_lt (h : Consumed b s t) (hs : s.decInv) :
    t.replayMeasure < s.replayMeasure + 256 := by
  unfold State.replayMeasure
  rcases h.load_cases hs with ⟨hload, hlack⟩ | ⟨hload, hlack⟩ <;> omega

/-- A consumed byte for which the queue has room keeps the invariant (R36). -/
theorem inv (h : Consumed b s t) (hs : s.Inv) (hroom : s.rq.length + s.pending + 1 ≤ Config.rqDepth) :
    t.Inv where
  bufWF := h.bufWF hs.bufWF
  dec := h.decInv hs.dec
  bound := by rcases h.load_cases hs.dec with ⟨hload, -⟩ | ⟨hload, -⟩ <;> omega
  inputsWF := h.inputs_eq ▸ hs.inputsWF

end Consumed

/-! ### The forecast, which no consumed byte changes (R48, R125) -/

/-- What the sink holds and where the decoder stands once `Scan` has read `bytes`, from the frames in `sink` on. -/
def forecast (sink : List OutTxn) (bytes : List Byte) : List OutTxn × Decoder :=
  (sink ++ (decodeStream bytes).map mkTxn, (scan bytes).2)

theorem forecast_congr (sink : List OutTxn) {x y : List Byte} (h : scan x = scan y) :
    forecast sink x = forecast sink y := by
  simp only [forecast, decodeStream, h]

/-- A frame is in the forecast alike before and after its delivery. -/
theorem forecast_emit (sink : List OutTxn) {f x y : List Byte} (h : scan y = (f :: (scan x).1, (scan x).2)) :
    forecast (sink ++ [mkTxn f]) x = forecast sink y := by
  simp [forecast, decodeStream, h]

theorem State.held_idle {s : State} (h : s.st = .idle) : s.held = s.rq := by
  simp [State.held, State.dec_idle h, Decoder.bytes]

theorem State.held_lengthPending {s : State} (h : s.st = .lengthPending) : s.held = s.idReg :: s.rq := by
  simp [State.held, State.dec_lengthPending h, Decoder.bytes]

theorem State.held_accumulating {s : State} {bs : List Byte} (hc : s.collected = some bs)
    (h : s.st = .accumulating) : s.held = bs ++ s.rq := by
  simp [State.held, State.dec_accumulating h hc, Decoder.bytes]

/-- The bytes collected when the frame buffer is opened (R89). -/
theorem State.collected_opened (s : State) (b : Byte) :
    State.collected { s.quiet.dropId with
      lenReg := b
      buf := Memory.write (Memory.write s.buf 0 s.idReg) 1 b
      fill := 2#9
      st := .accumulating } = some [s.idReg, b] :=
  Memory.readRange_write_end b (Memory.readRange_write_end s.idReg (Memory.readRange_zero s.buf 0))

/-- The bytes collected after a store (R90). -/
theorem State.collected_stored {s : State} {b : Byte} {bs : List Byte}
    (hf : s.fill.toNat + 1 < s.blen.toNat) (hc : s.collected = some bs) :
    State.collected { s.quiet with buf := s.stored b, fill := s.fill + 1#9 } = some (bs ++ [b]) := by
  rw [State.collected, State.fill_succ_toNat hf]
  exact Memory.readRange_write_end b hc

/-- Consuming a byte keeps the forecast: it moves the byte into the decoder, drops it as `Scan` does, delivers
the frame `Scan` finds, or returns to the queue the bytes `Scan` reads again. -/
theorem Consumed.forecast_eq {b : Byte} {s t : State} (h : Consumed b s t) (hs : s.decInv) (x : List Byte) :
    forecast t.sink (t.held ++ x) = forecast s.sink (s.dec.bytes ++ b :: (s.rq ++ x)) := by
  cases h with
  | idNoise hst hb =>
    rw [State.held_idle (s := s.quiet.raise _) hst, State.dec_idle hst]
    exact forecast_congr _ (scan_noise hb _).symm
  | idAccept hst hb =>
    rw [State.held_lengthPending rfl, State.dec_idle hst]
    rfl
  | lenZero hst hb =>
    obtain ⟨-, hid⟩ := (State.decInv_lengthPending hst).1 hs
    rw [State.held_idle rfl, State.dec_lengthPending hst]
    exact forecast_congr _ (scan_zero_length hid hb _).symm
  | lenAccept hst hb =>
    rw [State.held_accumulating (State.collected_opened s b) rfl, State.dec_lengthPending hst]
    rfl
  | accStore hst hf =>
    obtain ⟨id, body, hc, -⟩ := hs.collected_eq hst
    rw [State.held_accumulating (State.collected_stored hf hc) hst, State.dec_accumulating hst hc,
      List.append_assoc, ← List.append_cons]
    rfl
  | accEmit bs hst hf hc hb =>
    obtain ⟨id, body, hcand, hid, hlen, hbody⟩ := hs.candidate_eq hst hf hc b
    have hv : valid? (bs ++ [b]) = some true := by simp [hb]
    rw [State.held_idle rfl, State.dec_accumulating hst hc, Decoder.bytes, List.append_cons bs b (s.rq ++ x)]
    refine forecast_emit s.sink ?_
    rw [hcand] at hv ⊢
    exact scan_valid hid hlen hbody hv _
  | accRewind bs hst hf hc hb =>
    obtain ⟨id, body, hcand, hid, hlen, hbody⟩ := hs.candidate_eq hst hf hc b
    have hv : valid? (bs ++ [b]) = some false := by simp [hb]
    rw [State.held_idle rfl, State.dec_accumulating hst hc, Decoder.bytes, List.append_cons bs b (s.rq ++ x)]
    refine forecast_congr s.sink ?_
    rw [hcand] at hv ⊢
    rw [List.append_assoc]
    exact (scan_invalid hid hlen hbody hv _).symm

/-- A decoder that waits for a byte is where `Scan` ends on the bytes it holds (R125). -/
theorem State.decInv.scan_dec_bytes {s : State} (h : s.decInv) : scan s.dec.bytes = ([], s.dec) := by
  cases hst : s.st with
  | idle => rw [State.dec_idle hst]; rfl
  | lengthPending =>
    rw [State.dec_lengthPending hst]
    exact scan_lone_id ((State.decInv_lengthPending hst).1 h).2
  | accumulating =>
    obtain ⟨id, body, hc, hid, hlen, -, hbody⟩ := h.collected_eq hst
    rw [State.dec_accumulating hst hc]
    exact scan_incomplete hid hlen hbody

/-- With an empty queue and nothing to come, the forecast is what the block shows. -/
theorem State.decInv.forecast_held {s : State} (h : s.decInv) (hq : s.rq = []) :
    forecast s.sink s.held = (s.sink, s.dec) := by
  simp [forecast, State.held, hq, decodeStream, h.scan_dec_bytes]

/-! ### Steps on a cut stream (R116, R119 to R122) -/

/-- The moves of a source that offers bytes, is silent, or marks a burst boundary. -/
def StreamMove (x : Input) : Prop := (∃ b, x = .offer b) ∨ x = .gap ∨ x = .boundary

/-- A state of the invariant before which only a cut stream lies. -/
structure State.OnCutStream (s : State) : Prop where
  inv : s.Inv
  moves : ∀ x ∈ s.inputs, StreamMove x

/-- What the sink and the decoder come to by the held bytes and those still offered. -/
def State.outlook (s : State) : List OutTxn × Decoder :=
  forecast s.sink (s.held ++ s.inputs.filterMap Input.offeredByte)

/-- A step's advance: the invariant and the outlook stay, and moves of the outside are used up or, with the
moves kept, the measure of R97 falls. -/
structure Advance (s t : State) : Prop where
  onCutStream : t.OnCutStream
  outlook_eq : t.outlook = s.outlook
  falls : Prod.Lex (· < ·) (· < ·) (t.inputs.length, t.replayMeasure) (s.inputs.length, s.replayMeasure)

/-- A consumed byte that was the first of the unconsumed pool (R44) is an advance, if the queue has room for it
and it left the queue or took up a move of the outside. -/
theorem Consumed.advance {s t : State} {b : Byte} {q : List Byte} {rest : List Input} (h : s.OnCutStream)
    (hc : Consumed b { s with rq := q, inputs := rest } t) (hrest : rest ⊆ s.inputs)
    (hroom : q.length + s.pending + 1 ≤ Config.rqDepth)
    (hpool : b :: (q ++ rest.filterMap Input.offeredByte) = s.rq ++ s.inputs.filterMap Input.offeredByte)
    (hleft : rest.length < s.inputs.length ∨ rest.length = s.inputs.length ∧ s.rq = b :: q) : Advance s t where
  onCutStream :=
    have hwf : rest.all Input.wf = true :=
      List.all_eq_true.2 fun x hx => List.all_eq_true.1 h.inv.inputsWF x (hrest hx)
    { inv := hc.inv ⟨h.inv.bufWF, h.inv.dec, Nat.le_of_succ_le hroom, hwf⟩ hroom
      moves := by rw [hc.inputs_eq]; exact fun x hx => h.moves x (hrest hx) }
  outlook_eq := by
    rw [State.outlook, hc.inputs_eq, hc.forecast_eq h.inv.dec, State.outlook, State.held, List.append_assoc, ← hpool]
    rfl
  falls := by
    rw [hc.inputs_eq, Prod.lex_def]
    refine hleft.imp_right fun ⟨hlen, hq⟩ => ⟨hlen, ?_⟩
    have hlt := hc.replayMeasure_lt h.inv.dec
    have hpopped : s.replayMeasure = State.replayMeasure { s with rq := q, inputs := rest } + 256 := by
      show 256 * (s.rq.length + s.pending) + s.lacking = 256 * (q.length + s.pending) + s.lacking + 256
      rw [hq, List.length_cons]; omega
    exact hpopped ▸ hlt

/-- With a byte in the queue the step consumes it, whatever lies before it (R121). -/
theorem State.OnCutStream.advance_queue {s : State} {b : Byte} {q : List Byte} (h : s.OnCutStream)
    (hq : s.rq = b :: q) : ∃ t, step s = .next t ∧ Advance s t := by
  have hmove : ∀ {x : Input} {l : List Input}, s.inputs = x :: l → StreamMove x := fun hl =>
    h.moves _ (hl ▸ List.mem_cons_self)
  have hroom := h.inv.bound
  rw [hq, List.length_cons] at hroom
  rcases selectPort_queue (hq ▸ List.cons_ne_nil b q) s.inputs with
    ⟨l, hl, -⟩ | ⟨x, l, hl, -⟩ | ⟨x, l, hl, -⟩ | ⟨rest, hsel, hrest⟩
  · simpa [StreamMove] using hmove hl
  · simpa [StreamMove] using hmove hl
  · simpa [StreamMove] using hmove hl
  · obtain ⟨t, hc⟩ := State.decInv.exists_consumed (s := { s with rq := q, inputs := rest }) h.inv.dec b
    refine ⟨t, ?_, ?_⟩
    · rw [step_run hsel]
      exact (execRqTake_cons (s := { s with inputs := rest }) hq).trans ((consume_iff b _ t).2 hc)
    · rcases hrest with rfl | hgap
      · exact hc.advance h (List.Subset.refl _) (by omega) (by rw [hq]; rfl) (.inr ⟨rfl, hq⟩)
      · exact hc.advance h (by simp [hgap]) (by omega) (by rw [hq, hgap]; rfl) (.inl (by simp [hgap]))

/-- An offered byte is consumed by a block that is ready (R116, R119). -/
theorem State.OnCutStream.advance_offer {s : State} {b : Byte} {rest : List Input} (h : s.OnCutStream)
    (hq : s.rq = []) (hin : s.inputs = .offer b :: rest) : ∃ t, step s = .next t ∧ Advance s t := by
  obtain ⟨t, hc⟩ := State.decInv.exists_consumed (s := { s with rq := [], inputs := rest }) h.inv.dec b
  refine ⟨t, ?_, hc.advance h (by simp [hin]) ?_ (by rw [hq, hin]; rfl) (.inl (by simp [hin]))⟩
  · have hsel : selectPort s.rq s.inputs = .run (.inTake b) rest := by rw [hq, hin]; rfl
    have hp : ({ s with inputs := rest } : State) = { s with rq := [], inputs := rest } := by rw [← hq]
    rw [step_run hsel, hp]
    exact (execInTake_of_ready b rfl).trans ((consume_iff b _ t).2 hc)
  · have := h.inv.dec.pending_lt
    simpa using this

/-- A silence or a burst boundary before a quiescent block is used up and changes nothing (R122). -/
theorem State.OnCutStream.advance_wait {s : State} {rest : List Input} (h : s.OnCutStream) (hq : s.rq = [])
    (hin : s.inputs = .gap :: rest ∨ s.inputs = .boundary :: rest) : ∃ t, step s = .next t ∧ Advance s t := by
  have hsel : selectPort s.rq s.inputs = .idle rest := by
    rcases hin with hin | hin <;> rw [hq, hin] <;> rfl
  obtain ⟨x, hx, hnone⟩ : ∃ x, s.inputs = x :: rest ∧ x.offeredByte = none :=
    hin.elim (fun hin => ⟨_, hin, rfl⟩) (fun hin => ⟨_, hin, rfl⟩)
  have hwf := h.inv.inputsWF
  rw [hx, List.all_cons, Bool.and_eq_true] at hwf
  refine ⟨_, step_idle hsel, ⟨⟨⟨h.inv.bufWF, h.inv.dec, h.inv.bound, hwf.2⟩, fun y hy => ?_⟩, ?_, ?_⟩⟩
  · exact h.moves y (hx ▸ List.mem_cons_of_mem x hy)
  · show forecast s.sink (s.held ++ rest.filterMap Input.offeredByte) = s.outlook
    rw [State.outlook, hx, List.filterMap_cons_none hnone]
  · exact .left _ _ (by simp [hx])

/-- While a byte is queued or a move is left, a step advances. -/
theorem State.OnCutStream.exists_advance {s : State} (h : s.OnCutStream) (hbusy : ¬ (s.inputs = [] ∧ s.rq = [])) :
    ∃ t, step s = .next t ∧ Advance s t := by
  cases hq : s.rq with
  | cons b q => exact h.advance_queue hq
  | nil =>
    cases hin : s.inputs with
    | nil => exact absurd ⟨hin, hq⟩ hbusy
    | cons x rest =>
      rcases h.moves x (hin ▸ List.mem_cons_self) with ⟨b, rfl⟩ | rfl | rfl
      · exact h.advance_offer hq hin
      · exact h.advance_wait hq (.inl hin)
      · exact h.advance_wait hq (.inr hin)

theorem run_succ_of_step {s u : State} (h : step s = .next u) (k : Nat) : run (k + 1) s = run k u := by
  simp only [run, Host.Core.run]
  rw [show core.step s = .next u from h]

/-- The run ends quiescent with no move left, at what the outlook said. -/
theorem State.OnCutStream.exists_run {s : State} (h : s.OnCutStream) :
    ∃ k t, run k s = .next t ∧ t.inputs = [] ∧ t.rq = [] ∧ (t.sink, t.dec) = s.outlook := by
  by_cases hdone : s.inputs = [] ∧ s.rq = []
  · obtain ⟨hin, hq⟩ := hdone
    refine ⟨0, s, rfl, hin, hq, ?_⟩
    rw [State.outlook, hin, List.filterMap_nil, List.append_nil, h.inv.dec.forecast_held hq]
  · obtain ⟨u, hstep, hadv⟩ := h.exists_advance hdone
    obtain ⟨k, t, hrun, hin, hq, hout⟩ := hadv.onCutStream.exists_run
    exact ⟨k + 1, t, (run_succ_of_step hstep k).trans hrun, hin, hq, hout.trans hadv.outlook_eq⟩
termination_by (s.inputs.length, s.replayMeasure)
decreasing_by exact hadv.falls

/-- Settles O54: every step that is not yet quiescent keeps the outlook and makes the work left smaller, so the
run ends where the outlook is what the block shows. -/
theorem stepsOnACutStreamAgreeWithScan : Obligations.StepsOnACutStreamAgreeWithScan := by
  unfold Obligations.StepsOnACutStreamAgreeWithScan
  intro s hinv hmoves
  obtain ⟨k, t, hrun, hin, hq, hout⟩ := State.OnCutStream.exists_run ⟨hinv, hmoves⟩
  obtain ⟨hsink, hdec⟩ := Prod.mk.inj hout
  exact ⟨k, t, hrun, hin, hq, hsink, hdec⟩

end Sys2Proof.Machine

/-!
# The architectural state: the invariant, dead items, the abstract view (R21, R22, R26, R33, R35, R36)

The ports select only port operations, so a step keeps a property if waiting and the six port operations
keep it. The invariant is carried through `consume`, the drain and the burst. That dead items are never read
is a two-state property: whatever one of two states that agree on the live items does, the other does too,
with the same things shown (`Alike`).
-/

namespace Sys2Proof.Machine

/-! ### What the ports select (R116, R119 to R121) -/

/-- The operations the ports select; the others are selected by a byte. -/
inductive PortOp : Instr → Prop where
  | chkSum (bytes : List Byte) : PortOp (.chkSum bytes)
  | chkValidate (bytes : List Byte) : PortOp (.chkValidate bytes)
  | inTake (b : Byte) : PortOp (.inTake b)
  | rqTake : PortOp .rqTake
  | feed (burst : List Byte) : PortOp (.feed burst)
  | reset : PortOp .reset

theorem portOp_of_request {i : Instr} {x : Input} (h : request i = some x) : PortOp i := by
  cases i with
  | chkSum bytes => exact .chkSum bytes
  | chkValidate bytes => exact .chkValidate bytes
  | inTake b => exact .inTake b
  | feed burst => exact .feed burst
  | reset => exact .reset
  | _ => cases h

/-- The ports select a port operation and invent no move of the outside. -/
theorem selectPort_run {rq : List Byte} {l rest : List Input} {i : Instr}
    (h : selectPort rq l = .run i rest) : PortOp i ∧ rest ⊆ l := by
  by_cases hq : rq = []
  · subst hq
    rcases selectPort_empty l with ⟨hsel, -⟩ | ⟨_, hsel, -⟩ | ⟨x, j, _, rfl, hj, hsel⟩
    · cases hsel.symm.trans h
    · cases hsel.symm.trans h
    · cases hsel.symm.trans h
      exact ⟨portOp_of_request hj, List.subset_cons_self _ _⟩
  · rcases selectPort_queue hq l with
      ⟨_, rfl, hsel⟩ | ⟨bytes, _, rfl, hsel⟩ | ⟨bytes, _, rfl, hsel⟩ | ⟨_, hsel, hrest⟩ <;>
      cases hsel.symm.trans h
    · exact ⟨.reset, List.subset_cons_self _ _⟩
    · exact ⟨.chkSum bytes, List.subset_cons_self _ _⟩
    · exact ⟨.chkValidate bytes, List.subset_cons_self _ _⟩
    · rcases hrest with rfl | rfl
      · exact ⟨.rqTake, List.Subset.refl _⟩
      · exact ⟨.rqTake, List.subset_cons_self _ _⟩

/-- A waiting block invents no move of the outside. -/
theorem selectPort_idle {rq : List Byte} {l rest : List Input} (h : selectPort rq l = .idle rest) :
    rest ⊆ l := by
  by_cases hq : rq = []
  · subst hq
    rcases selectPort_empty l with ⟨hsel, -⟩ | ⟨_, hsel, hl⟩ | ⟨_, _, _, -, -, hsel⟩ <;>
      cases hsel.symm.trans h
    · exact List.nil_subset l
    · rcases hl with rfl | rfl <;> exact List.subset_cons_self _ _
  · rcases selectPort_queue hq l with ⟨_, -, hsel⟩ | ⟨_, _, -, hsel⟩ | ⟨_, _, -, hsel⟩ | ⟨_, hsel, -⟩ <;>
      cases hsel.symm.trans h

theorem execChkValidate_next {s t : State} {bytes : List Byte} (h : execChkValidate bytes s = .next t) :
    ∃ v, valid? bytes = some v ∧ t = { s.quiet with fn := some (.valid v) } := by
  unfold execChkValidate at h
  split at h
  · cases h
  · cases h; exact ⟨_, ‹_›, rfl⟩

/-- What a drain can do: nothing with an empty queue, else one `RQ.TAKE` and then the rest (R123). -/
theorem drain_next {n : Nat} {s t : State} (h : drain n s = .next t) :
    (s.rq = [] ∧ t = s) ∨ ∃ m u, n = m + 1 ∧ execRqTake s = .next u ∧ drain m u = .next t := by
  by_cases hq : s.rq = []
  · rw [drain_of_ready n hq] at h
    cases h; exact .inl ⟨hq, rfl⟩
  · have hr : ¬ s.inReady = true := by simpa using hq
    cases n with
    | zero => rw [drain, if_neg hr] at h; cases h
    | succ n =>
      rw [drain, if_neg hr] at h
      split at h
      · exact .inr ⟨n, _, rfl, ‹_›, h⟩
      · cases h
      · cases h

theorem drain_succ_of_take {s u : State} (h : execRqTake s = .next u) (n : Nat) :
    drain (n + 1) s = drain n u := by
  obtain ⟨b, rq, hq, -⟩ := execRqTake_next h
  simp [drain, h, State.inReady, hq]

theorem feedBytes_cons_of_next {b : Byte} {bs : List Byte} {s u v : State} (hu : execInTake b s = .next u)
    (hv : drain Config.drainBound u = .next v) : feedBytes (b :: bs) s = feedBytes bs v := by
  simp only [feedBytes, feedByte, hu, hv]

/-! ### The invariant is kept (R36, R47) -/

namespace State.Inv

variable {s t : State}

/-- In `Idle` with nothing queued and no cell listed the invariant asks only for well-formed moves. -/
theorem of_idle_empty (hst : s.st = .idle) (hbuf : s.buf = []) (hq : s.rq = [])
    (hin : s.inputs.all Input.wf = true) : s.Inv where
  bufWF := hbuf ▸ Memory.wf_nil
  dec := (State.decInv_idle hst).2 hbuf
  bound := by simp [hq, State.pending_of_not_accumulating (s := s) (by simp [hst])]
  inputsWF := hin

/-- The invariant does not depend on what the last operation showed. -/
theorem quiet_fn (h : s.Inv) (f : Option FnResult) : State.Inv { s.quiet with fn := f } :=
  ⟨h.bufWF, h.dec, h.bound, h.inputsWF⟩

theorem of_inputs_subset {rest : List Input} (h : s.Inv) (hsub : rest ⊆ s.inputs) :
    State.Inv { s with inputs := rest } :=
  ⟨h.bufWF, h.dec, h.bound, List.all_eq_true.2 fun x hx => List.all_eq_true.1 h.inputsWF x (hsub hx)⟩

theorem after_inTake {b : Byte} (h : s.Inv) (ht : execInTake b s = .next t) : t.Inv := by
  obtain ⟨hq, hc⟩ := execInTake_next ht
  have hroom := h.dec.pending_lt
  exact hc.inv h (by simpa [hq] using hroom)

theorem after_rqTake (h : s.Inv) (ht : execRqTake s = .next t) : t.Inv := by
  obtain ⟨b, rq, hq, hc⟩ := execRqTake_next ht
  have hbound := h.bound
  rw [hq, List.length_cons] at hbound
  have hroom : rq.length + s.pending + 1 ≤ Config.rqDepth := by omega
  exact hc.inv ⟨h.bufWF, h.dec, Nat.le_of_succ_le hroom, h.inputsWF⟩ hroom

theorem after_drain {n : Nat} (h : s.Inv) (ht : drain n s = .next t) : t.Inv :=
  (drain_next_rel (R := fun s t => s.Inv → t.Inv) (fun _ => id)
    (fun _ _ _ hu hut hs => hut (hs.after_rqTake hu)) ht).2 h

theorem after_feedBytes {bs : List Byte} (h : s.Inv) (ht : feedBytes bs s = .next t) : t.Inv := by
  induction bs generalizing s with
  | nil => cases ht; exact h
  | cons b bs ih =>
    obtain ⟨u, v, hu, hv, ht⟩ := feedBytes_cons_next ht
    exact ih ((h.after_inTake hu).after_drain hv) ht

/-- Every operation the ports select keeps the invariant. -/
theorem after_portOp {i : Instr} (h : s.Inv) (hi : PortOp i) (ht : exec i s = .next t) : t.Inv := by
  cases hi with
  | chkSum => cases ht; exact h.quiet_fn _
  | chkValidate =>
    obtain ⟨v, -, rfl⟩ := execChkValidate_next ht
    exact h.quiet_fn _
  | inTake => exact h.after_inTake ht
  | rqTake => exact h.after_rqTake ht
  | feed => exact (h.quiet_fn none).after_feedBytes (execFeed_next ht).2
  | reset => cases ht; exact of_idle_empty rfl rfl rfl h.inputsWF

end State.Inv

/-- Settles O22: the step waits or runs a port operation, and each of these keeps the invariant. -/
theorem everyStepKeepsTheInvariant : Obligations.EveryStepKeepsTheInvariant := by
  unfold Obligations.EveryStepKeepsTheInvariant
  intro s t hinv hstep
  rcases step_cases hstep with ⟨i, rest, hsel, hexec⟩ | ⟨rest, hsel, rfl⟩
  · obtain ⟨hport, hsub⟩ := selectPort_run hsel
    exact (hinv.of_inputs_subset hsub).after_portOp hport hexec
  · exact (hinv.of_inputs_subset (selectPort_idle hsel)).quiet_fn none

/-! ### Live items decide what is read (R21) -/

namespace SameArch

variable {s s' : State}

/-- In `Idle` no register and no cell is live. -/
theorem of_idle (hst : s.st = .idle) (hst' : s'.st = .idle) (hq : s.rq = s'.rq) (hin : s.inputs = s'.inputs) :
    SameArch s s' where
  st := hst.trans hst'.symm
  rq := hq
  inputs := hin
  id h := by simp [hst] at h
  len h := by simp [hst] at h
  fill h := by simp [hst] at h
  cells h := by simp [hst] at h

theorem quiet_fn (h : SameArch s s') (f : Option FnResult) :
    SameArch { s.quiet with fn := f } { s'.quiet with fn := f } :=
  ⟨h.st, h.rq, h.inputs, h.id, h.len, h.fill, h.cells⟩

theorem with_rq (h : SameArch s s') (rq : List Byte) : SameArch { s with rq := rq } { s' with rq := rq } :=
  ⟨h.st, rfl, h.inputs, h.id, h.len, h.fill, h.cells⟩

theorem with_inputs (h : SameArch s s') (l : List Input) :
    SameArch { s with inputs := l } { s' with inputs := l } :=
  ⟨h.st, h.rq, rfl, h.id, h.len, h.fill, h.cells⟩

theorem blen_eq (h : SameArch s s') (hst : s.st = .accumulating) : s.blen = s'.blen := by
  simp only [State.blen, h.len hst]

/-- The bytes collected lie in live cells. -/
theorem collected_eq_some (h : SameArch s s') (hst : s.st = .accumulating) {bs : List Byte}
    (hc : s.collected = some bs) : s'.collected = some bs := by
  obtain ⟨hlen, hread⟩ := Memory.readRange_eq_some.1 hc
  rw [State.collected, ← h.fill hst]
  refine Memory.readRange_eq_some.2 ⟨hlen, fun i hi => ?_⟩
  rw [← h.cells hst (0 + i) (by omega)]
  exact hread i hi

/-- A store at `fill` leaves the buffers alike on the cells up to `fill`. -/
theorem read_stored (h : SameArch s s') (hst : s.st = .accumulating) (b : Byte) {a : Nat}
    (ha : a < s.fill.toNat + 1) : Memory.read (s.stored b) a = Memory.read (s'.stored b) a := by
  rw [State.stored, State.stored, ← h.fill hst]
  by_cases hlast : a = s.fill.toNat
  · rw [hlast, Memory.read_write_same, Memory.read_write_same]
  · rw [Memory.read_write_ne _ b hlast, Memory.read_write_ne _ b hlast]
    exact h.cells hst a (by omega)

end SameArch

/-- The opened frame buffer reads alike whatever it held before (R89). -/
theorem Memory.read_opened (m n : List Host.Cell) (id len : Byte) {a : Nat} (ha : a < 2) :
    Memory.read (Memory.write (Memory.write m 0 id) 1 len) a =
      Memory.read (Memory.write (Memory.write n 0 id) 1 len) a := by
  by_cases h1 : a = 1
  · rw [h1, Memory.read_write_same, Memory.read_write_same]
  · obtain rfl : a = 0 := by omega
    rw [Memory.read_write_ne _ len h1, Memory.read_write_ne _ len h1, Memory.read_write_same,
      Memory.read_write_same]

/-! ### Two states that agree on the live items go on alike (R21) -/

/-- From `s` and `s'` the block came to `t` and `t'` alike: the same architectural state, the same things
shown, the same frames delivered on the way. -/
structure Alike (s s' t t' : State) : Prop where
  arch : SameArch t t'
  shown : SameShown t t'
  sink : ∃ new, t.sink = s.sink ++ new ∧ t'.sink = s'.sink ++ new

namespace Alike

variable {a a' s s' t t' : State}

/-- No frame was delivered. -/
theorem silent (harch : SameArch t t') (hshown : SameShown t t') (hs : t.sink = s.sink)
    (hs' : t'.sink = s'.sink) : Alike s s' t t' :=
  ⟨harch, hshown, [], by rw [hs, List.append_nil], by rw [hs', List.append_nil]⟩

theorem trans (h : Alike a a' s s') (h' : Alike s s' t t') : Alike a a' t t' := by
  obtain ⟨new, hs, hs'⟩ := h.sink
  obtain ⟨more, ht, ht'⟩ := h'.sink
  refine ⟨h'.arch, h'.shown, new ++ more, ?_, ?_⟩
  · rw [ht, hs, List.append_assoc]
  · rw [ht', hs', List.append_assoc]

/-- The ports are cleared, a pure function's result may be shown. -/
theorem quiet_fn (h : SameArch s s') (f : Option FnResult) :
    Alike s s' { s.quiet with fn := f } { s'.quiet with fn := f } :=
  silent (h.quiet_fn f) ⟨rfl, rfl, rfl⟩ rfl rfl

end Alike

/-- Consuming a byte reads only live items (R86 to R92). -/
theorem Consumed.exists_alike {b : Byte} {s s' t : State} (hc : Consumed b s t) (h : SameArch s s') :
    ∃ t', Consumed b s' t' ∧ Alike s s' t t' := by
  cases hc with
  | idNoise hst hb =>
    have hst' := h.st.symm.trans hst
    exact ⟨_, .idNoise hst' hb,
      .silent (.of_idle hst hst' h.rq h.inputs) ⟨rfl, rfl, rfl⟩ rfl rfl⟩
  | idAccept hst hb =>
    exact ⟨_, .idAccept (h.st.symm.trans hst) hb,
      .silent ⟨rfl, h.rq, h.inputs, fun _ => rfl, nofun, nofun, nofun⟩ ⟨rfl, rfl, rfl⟩ rfl rfl⟩
  | lenZero hst hb =>
    refine ⟨_, .lenZero (h.st.symm.trans hst) hb,
      .silent (.of_idle rfl rfl h.rq h.inputs) ⟨rfl, ?_, rfl⟩ rfl rfl⟩
    exact congrArg (fun id => some (ErrorKind.zeroLength id)) (h.id hst)
  | lenAccept hst hb =>
    refine ⟨_, .lenAccept (h.st.symm.trans hst) hb, .silent ?_ ⟨rfl, rfl, rfl⟩ rfl rfl⟩
    refine ⟨rfl, h.rq, h.inputs, nofun, fun _ => rfl, fun _ => rfl, fun _ a ha => ?_⟩
    simp only [h.id hst]
    exact Memory.read_opened _ _ _ b ha
  | accStore hst hf =>
    refine ⟨_, .accStore (h.st.symm.trans hst) (h.fill hst ▸ h.blen_eq hst ▸ hf),
      .silent ?_ ⟨rfl, rfl, rfl⟩ rfl rfl⟩
    refine ⟨h.st, h.rq, h.inputs, h.id, h.len, fun _ => ?_, fun _ a ha => ?_⟩
    · exact congrArg (· + 1#9) (h.fill hst)
    · exact h.read_stored hst b ((State.fill_succ_toNat hf).subst ha)
  | accEmit bs hst hf hcol hb =>
    exact ⟨_, .accEmit bs (h.st.symm.trans hst) (h.fill hst ▸ h.blen_eq hst ▸ hf)
        (h.collected_eq_some hst hcol) hb,
      .of_idle rfl rfl h.rq h.inputs, ⟨rfl, rfl, rfl⟩, [mkTxn (bs ++ [b])], rfl, rfl⟩
  | accRewind bs hst hf hcol hb =>
    have hq : (bs ++ [b]).drop 2 ++ s.rq = (bs ++ [b]).drop 2 ++ s'.rq := by rw [h.rq]
    exact ⟨_, .accRewind bs (h.st.symm.trans hst) (h.fill hst ▸ h.blen_eq hst ▸ hf)
        (h.collected_eq_some hst hcol) hb,
      .silent (.of_idle rfl rfl hq h.inputs) ⟨rfl, rfl, rfl⟩ rfl rfl⟩

namespace SameArch

variable {s s' t : State}

theorem after_inTake {b : Byte} (h : SameArch s s') (ht : execInTake b s = .next t) :
    ∃ t', execInTake b s' = .next t' ∧ Alike s s' t t' := by
  obtain ⟨hq, hc⟩ := execInTake_next ht
  obtain ⟨t', hc', halike⟩ := hc.exists_alike h
  exact ⟨t', (execInTake_of_ready b (h.rq ▸ hq)).trans ((consume_iff b s' t').2 hc'), halike⟩

theorem after_rqTake (h : SameArch s s') (ht : execRqTake s = .next t) :
    ∃ t', execRqTake s' = .next t' ∧ Alike s s' t t' := by
  obtain ⟨b, rq, hq, hc⟩ := execRqTake_next ht
  obtain ⟨t', hc', halike⟩ := hc.exists_alike (h.with_rq rq)
  exact ⟨t', (execRqTake_cons (h.rq ▸ hq)).trans ((consume_iff b _ t').2 hc'),
    halike.arch, halike.shown, halike.sink⟩

end SameArch

namespace Alike

variable {a a' s s' t : State}

theorem after_drain {n : Nat} (h : Alike a a' s s') (ht : drain n s = .next t) :
    ∃ t', drain n s' = .next t' ∧ Alike a a' t t' := by
  induction n generalizing s s' with
  | zero =>
    rcases drain_next ht with ⟨hq, rfl⟩ | ⟨_, _, hn, -⟩
    · exact ⟨s', drain_of_ready 0 (h.arch.rq ▸ hq), h⟩
    · cases hn
  | succ n ih =>
    rcases drain_next ht with ⟨hq, rfl⟩ | ⟨m, u, hn, hu, ht⟩
    · exact ⟨s', drain_of_ready _ (h.arch.rq ▸ hq), h⟩
    · cases hn
      obtain ⟨u', hu', halike⟩ := h.arch.after_rqTake hu
      rw [drain_succ_of_take hu']
      exact ih (h.trans halike) ht

theorem after_feedBytes {bs : List Byte} (h : Alike a a' s s') (ht : feedBytes bs s = .next t) :
    ∃ t', feedBytes bs s' = .next t' ∧ Alike a a' t t' := by
  induction bs generalizing s s' with
  | nil => cases ht; exact ⟨s', rfl, h⟩
  | cons b bs ih =>
    obtain ⟨u, v, hu, hv, ht⟩ := feedBytes_cons_next ht
    obtain ⟨u', hu', halike⟩ := h.arch.after_inTake hu
    obtain ⟨v', hv', h⟩ := (h.trans halike).after_drain hv
    rw [feedBytes_cons_of_next hu' hv']
    exact ih h ht

end Alike

/-- Every operation the ports select reads only live items. -/
theorem SameArch.after_portOp {s s' t : State} {i : Instr} (h : SameArch s s') (hi : PortOp i)
    (ht : exec i s = .next t) : ∃ t', exec i s' = .next t' ∧ Alike s s' t t' := by
  cases hi with
  | chkSum => cases ht; exact ⟨_, rfl, .quiet_fn h _⟩
  | chkValidate bytes =>
    obtain ⟨v, hv, rfl⟩ := execChkValidate_next ht
    exact ⟨_, by simp only [exec, execChkValidate, hv], .quiet_fn h _⟩
  | inTake => exact h.after_inTake ht
  | rqTake => exact h.after_rqTake ht
  | feed burst =>
    obtain ⟨hq, ht⟩ := execFeed_next ht
    obtain ⟨t', ht', halike⟩ := (Alike.quiet_fn h none).after_feedBytes ht
    exact ⟨t', (execFeed_of_ready burst (h.rq ▸ hq)).trans ht', halike⟩
  | reset =>
    cases ht
    exact ⟨_, rfl, .silent (.of_idle rfl rfl rfl h.inputs) ⟨rfl, rfl, rfl⟩ rfl rfl⟩

/-- Settles O36: the queue and the moves select the same operation in both states, and no port operation reads
a dead item. -/
theorem noObservableDependsOnADeadItem : Obligations.NoObservableDependsOnADeadItem := by
  unfold Obligations.NoObservableDependsOnADeadItem
  intro s s' t h hstep
  have hport : selectPort s'.rq s'.inputs = selectPort s.rq s.inputs := by rw [h.rq, h.inputs]
  rcases step_cases hstep with ⟨i, rest, hsel, hexec⟩ | ⟨rest, hsel, rfl⟩
  · obtain ⟨t', hexec', halike⟩ := (h.with_inputs rest).after_portOp (selectPort_run hsel).1 hexec
    exact ⟨t', (step_run (hport.trans hsel)).trans hexec', halike.arch, halike.shown, halike.sink⟩
  · have halike := Alike.quiet_fn (h.with_inputs rest) none
    exact ⟨_, step_idle (hport.trans hsel), halike.arch, halike.shown, halike.sink⟩

/-! ### The accumulator of R33 -/

theorem sumAcc_eq_add_sum8 (acc : Byte) (s : List Byte) : sumAcc acc s = acc + sum8 s := by
  induction s generalizing acc with
  | nil => rw [sumAcc, sum8_nil, BitVec.add_zero]
  | cons b s ih => rw [sumAcc, ih, sum8_cons, BitVec.add_assoc]

/-- Settles O34: the accumulator holds its start value plus the sum of the bytes added. -/
theorem runningAccumulatorAgreesWithTheBuffer : Obligations.RunningAccumulatorAgreesWithTheBuffer := by
  unfold Obligations.RunningAccumulatorAgreesWithTheBuffer
  constructor
  · intro id len c
    rw [sumAcc_eq_add_sum8, sum8_cons, sum8_cons, BitVec.add_assoc]
  · intro s
    rw [sumAcc_eq_add_sum8, BitVec.zero_add]

/-! ### The abstract view (R22) -/

/-- The decoder state register as the abstract view shows it. -/
def Decoder.st : Decoder → DecState
  | .idle => .idle
  | .lengthPending _ => .lengthPending
  | .accumulating _ => .accumulating

theorem State.dec_st (s : State) : s.dec.st = s.st := by
  unfold State.dec
  split <;> simp [Decoder.st, *]

/-- States of the invariant with the same decoder value agree on the live registers and cells. -/
theorem SameArch.of_dec_eq {s t : State} (hs : s.decInv) (ht : t.decInv) (hdec : s.dec = t.dec)
    (hq : s.rq = t.rq) (hin : s.inputs = t.inputs) : SameArch s t := by
  have hst : s.st = t.st := by rw [← s.dec_st, hdec, t.dec_st]
  cases h : s.st with
  | idle => exact .of_idle h (hst ▸ h) hq hin
  | lengthPending =>
    rw [State.dec_lengthPending h, State.dec_lengthPending (hst ▸ h)] at hdec
    refine ⟨hst, hq, hin, fun _ => Decoder.lengthPending.inj hdec, ?_, ?_, ?_⟩ <;> simp [h]
  | accumulating =>
    obtain ⟨id, body, hc, -, -, hfill, -⟩ := hs.collected_eq h
    obtain ⟨id', body', hc', -, -, hfill', -⟩ := ht.collected_eq (hst ▸ h)
    rw [State.dec_accumulating h hc, State.dec_accumulating (hst ▸ h) hc'] at hdec
    have hbytes := Decoder.accumulating.inj hdec
    obtain ⟨-, hlenReg, rfl⟩ : id = id' ∧ s.lenReg = t.lenReg ∧ body = body' := by simpa using hbytes
    have hfillEq : s.fill = t.fill := BitVec.eq_of_toNat_eq (by omega)
    refine ⟨hst, hq, hin, by simp [h], fun _ => hlenReg, fun _ => hfillEq, fun _ a ha => ?_⟩
    obtain ⟨hlen, hread⟩ := Memory.readRange_eq_some.1 hc
    obtain ⟨-, hread'⟩ := Memory.readRange_eq_some.1 (hbytes ▸ hc')
    have hcell := (hread a (hlen ▸ ha)).trans (hread' a (hlen ▸ ha)).symm
    rwa [Nat.zero_add] at hcell

/-- The abstract view reads only live items. -/
theorem SameArch.dec_eq {s t : State} (h : SameArch s t) (hs : s.decInv) : s.dec = t.dec := by
  cases hst : s.st with
  | idle => rw [State.dec_idle hst, State.dec_idle (h.st ▸ hst)]
  | lengthPending => rw [State.dec_lengthPending hst, State.dec_lengthPending (h.st ▸ hst), h.id hst]
  | accumulating =>
    obtain ⟨id, body, hc, -⟩ := hs.collected_eq hst
    rw [State.dec_accumulating hst hc, State.dec_accumulating (h.st ▸ hst) (h.collected_eq_some hst hc)]

/-- Settles O49: the decoder value is read from the live items, and in a state of the invariant each live item
is read off it. -/
theorem abstractViewCarriesTheSameInformation : Obligations.AbstractViewCarriesTheSameInformation := by
  unfold Obligations.AbstractViewCarriesTheSameInformation
  intro s t hs ht hin
  constructor
  · rintro ⟨hdec, hq⟩
    exact .of_dec_eq hs.dec ht.dec hdec hq hin
  · intro h
    exact ⟨h.dec_eq hs.dec, h.rq⟩

/-! ### The state after reset and the size of a frame (R26, R35) -/

/-- Settles O20: the reset values of R35. -/
theorem resetStateIsAsSpecified : Obligations.ResetStateIsAsSpecified := by
  unfold Obligations.ResetStateIsAsSpecified
  exact ⟨State.reset_st, State.reset_rq, State.reset_out, (State.inReady_iff _).2 State.reset_rq⟩

/-- Settles O21: after reset the block is in `Idle` with nothing queued, no cell listed and no move pending. -/
theorem resetMeetsTheInvariant : Obligations.ResetMeetsTheInvariant := by
  unfold Obligations.ResetMeetsTheInvariant
  exact State.Inv.of_idle_empty State.reset_st State.reset_buf State.reset_rq rfl

/-- Settles O48: the 9-bit addition does not wrap, since `len_reg` is at most 255. -/
theorem blenIsLengthPlusTwoExactly : Obligations.BlenIsLengthPlusTwoExactly := by
  unfold Obligations.BlenIsLengthPlusTwoExactly
  intro s
  refine ⟨s.blen_toNat, s.blen_le, fun hne => ?_, fun hmax => ?_⟩
  · have hpos : s.lenReg.toNat ≠ 0 := fun h0 => hne (BitVec.eq_of_toNat_eq h0)
    rw [s.blen_toNat]; omega
  · rw [s.blen_toNat, hmax]; rfl

end Sys2Proof.Machine

/-!
# The bytes the block holds: the pool, the replay queue, the sink (R43 to R48)

A byte operation and a consumed byte are the same thing seen from exec and from the ports
(`exec_next_iff_consumed`), so each statement about intake is a case split over `Consumed`, once, read for
`IN.TAKE` with the queue empty and for `RQ.TAKE` with the head popped.
-/

namespace Sys2Proof.Machine

/-! ### Bytes that leave the block (R48) -/

/-- `gone` may have left in the step that led to `t`: it is the frame on the port, or at most two bytes where
the port shows none. -/
def State.Releases (t : State) (gone : List Byte) : Prop :=
  (∀ o, t.out = some o → gone = o.frame) ∧ (t.out = none → gone.length ≤ 2)

theorem State.releases_of_silent {t : State} {gone : List Byte} (ht : t.out = none)
    (hgone : gone.length ≤ 2) : t.Releases gone :=
  ⟨fun _ ho => (nomatch ht.symm.trans ho), fun _ => hgone⟩

theorem State.releases_frame {t : State} {f : List Byte} (ht : t.out = some (mkTxn f)) : t.Releases f := by
  refine ⟨fun o ho => ?_, fun hnone => nomatch ht.symm.trans hnone⟩
  obtain rfl := Option.some.inj (ht.symm.trans ho)
  exact (mkTxn_frame f).symm

/-- The bytes of the decoder, the consumed byte and the queue are, in this order, what leaves and what is held
afterwards. -/
theorem Consumed.exists_released {b : Byte} {s t : State} (h : Consumed b s t) (hs : s.decInv) :
    ∃ gone, s.dec.bytes ++ b :: s.rq = gone ++ t.held ∧ t.Releases gone := by
  cases h with
  | idNoise hst =>
    refine ⟨[b], ?_, State.releases_of_silent rfl (Nat.le_succ 1)⟩
    rw [State.dec_idle hst, State.held_idle (s := s.quiet.raise _) hst]
    rfl
  | idAccept hst =>
    refine ⟨[], ?_, State.releases_of_silent rfl (Nat.zero_le 2)⟩
    rw [State.dec_idle hst, State.held_lengthPending rfl]
    rfl
  | lenZero hst =>
    refine ⟨[s.idReg, b], ?_, State.releases_of_silent rfl le_rfl⟩
    rw [State.dec_lengthPending hst, State.held_idle rfl]
    rfl
  | lenAccept hst =>
    refine ⟨[], ?_, State.releases_of_silent rfl (Nat.zero_le 2)⟩
    rw [State.dec_lengthPending hst, State.held_accumulating (State.collected_opened s b) rfl]
    rfl
  | accStore hst hf =>
    obtain ⟨id, body, hc, -⟩ := hs.collected_eq hst
    refine ⟨[], ?_, State.releases_of_silent rfl (Nat.zero_le 2)⟩
    rw [State.dec_accumulating hst hc, State.held_accumulating (State.collected_stored hf hc) hst]
    exact List.append_cons _ b s.rq
  | accEmit bs hst hf hc =>
    refine ⟨bs ++ [b], ?_, State.releases_frame rfl⟩
    rw [State.dec_accumulating hst hc, State.held_idle rfl]
    exact List.append_cons bs b s.rq
  | accRewind bs hst hf hc =>
    refine ⟨(bs ++ [b]).take 2, ?_, State.releases_of_silent rfl (List.length_take_le 2 _)⟩
    rw [State.dec_accumulating hst hc, State.held_idle rfl, ← List.append_assoc, List.take_append_drop]
    exact List.append_cons bs b s.rq

/-- Settles O25: for `IN.TAKE` the queue is empty, for `RQ.TAKE` the consumed byte was its head; so the bytes
held and taken are those of the decoder, the consumed byte and the queue. -/
theorem heldBytesStayAContiguousSliceInOrder : Obligations.HeldBytesStayAContiguousSliceInOrder := by
  unfold Obligations.HeldBytesStayAContiguousSliceInOrder
  constructor
  · intro s t b hinv ht
    obtain ⟨hq, hc⟩ := execInTake_next ht
    have htaken : s.held ++ [b] = s.dec.bytes ++ b :: s.rq := by
      rw [State.held, hq, List.append_nil]
    rw [htaken]
    exact hc.exists_released hinv.dec
  · intro s t hinv ht
    obtain ⟨b, rq, hq, hc⟩ := execRqTake_next ht
    rw [State.held, hq]
    exact hc.exists_released hinv.dec

/-! ### Frames in the sink (R43) -/

theorem SameArch.refl (s : State) : SameArch s s :=
  ⟨rfl, rfl, rfl, fun _ => rfl, fun _ => rfl, fun _ => rfl, fun _ _ _ => rfl⟩

/-- Settles O43: what a step delivers is appended to the sink, which O36 says of two steps from states alike;
here both are the one step. -/
theorem sinkIsNeverRewritten : Obligations.SinkIsNeverRewritten := by
  unfold Obligations.SinkIsNeverRewritten
  intro s t hstep
  obtain ⟨-, -, -, -, new, hsink, -⟩ := noObservableDependsOnADeadItem s s t (SameArch.refl s) hstep
  exact ⟨new, hsink.symm⟩

/-! ### Byte operations and consumed bytes (R71, R85) -/

theorem encode_decodeByte (c : Ctx) (b : Byte) : encode (decodeByte c b) = [b] := by
  cases c with
  | idle => simp only [decodeByte]; split <;> rfl
  | lengthPending => simp only [decodeByte]; split <;> rfl
  | storing => rfl
  | full sum => simp only [decodeByte]; split <;> rfl

/-- A byte operation that answers a next state is the one its byte selects (R71). -/
theorem exec_next_selected {i : Instr} {b : Byte} {s t : State} (hi : encode i = [b])
    (h : exec i s = .next t) : ∃ c, s.ctx = some c ∧ decodeByte c b = i := by
  cases i with
  | idAccept | idNoise | lenZero | lenAccept | accStore | accEmit | accRewind =>
    cases hi; exact (onSelected_next h).1
  | chkSum | chkValidate | inTake | rqTake | feed | reset => cases hi

/-- A byte operation answers `t` exactly where the state and the byte select it and consuming the byte
answers `t`. -/
theorem exec_next_iff_consumed {i : Instr} {b : Byte} {s t : State} (hi : encode i = [b]) :
    exec i s = .next t ↔ (∃ c, s.ctx = some c ∧ decodeByte c b = i) ∧ Consumed b s t := by
  constructor
  · intro h
    obtain ⟨c, hctx, rfl⟩ := exec_next_selected hi h
    exact ⟨⟨c, hctx, rfl⟩, (consume_iff b s t).1 ((consume_eq_exec b hctx).trans h)⟩
  · rintro ⟨⟨c, hctx, rfl⟩, hc⟩
    exact (consume_eq_exec b hctx).symm.trans ((consume_iff b s t).2 hc)

/-- A byte is consumed only where R71's table has a row. -/
theorem Consumed.exists_ctx {b : Byte} {s t : State} (h : Consumed b s t) : ∃ c, s.ctx = some c := by
  cases h with
  | idNoise hst => exact ⟨_, State.ctx_idle hst⟩
  | idAccept hst => exact ⟨_, State.ctx_idle hst⟩
  | lenZero hst => exact ⟨_, State.ctx_lengthPending hst⟩
  | lenAccept hst => exact ⟨_, State.ctx_lengthPending hst⟩
  | accStore hst hf => exact ⟨_, State.ctx_storing hst hf⟩
  | accEmit bs hst hf hc => exact ⟨_, State.ctx_full hst hf hc⟩
  | accRewind bs hst hf hc => exact ⟨_, State.ctx_full hst hf hc⟩

/-- Consuming a byte is running a byte operation on it. -/
theorem Consumed.exists_exec {b : Byte} {s t : State} (h : Consumed b s t) :
    ∃ i, encode i = [b] ∧ exec i s = .next t := by
  obtain ⟨c, hctx⟩ := h.exists_ctx
  have henc := encode_decodeByte c b
  exact ⟨_, henc, (exec_next_iff_consumed henc).2 ⟨⟨c, hctx, rfl⟩, h⟩⟩

/-! ### The replay queue under a consumed byte (R45 to R47) -/

/-- A rewind returns as many bytes as the Length asked for (R92). -/
theorem State.rewound_length {s : State} {bs : List Byte} (b : Byte)
    (hf : s.fill.toNat + 1 = s.blen.toNat) (hc : s.collected = some bs) :
    ((bs ++ [b]).drop 2).length = s.lenReg.toNat := by
  rw [s.blen_toNat, ← State.collected_length hc] at hf
  rw [List.length_drop, List.length_append, List.length_singleton]
  omega

/-- The selected operation is `ACC.REWIND` and puts the candidate's bytes after the Length in front of the
queue, or it is another one and leaves the queue as it is. -/
theorem Consumed.rq_cases {b : Byte} {s t : State} {c : Ctx} (h : Consumed b s t) (hctx : s.ctx = some c) :
    (decodeByte c b ≠ .accRewind b ∧ t.rq = s.rq) ∨
    (decodeByte c b = .accRewind b ∧ ∃ bs, s.fill.toNat + 1 = s.blen.toNat ∧ s.collected = some bs ∧
      t.rq = (bs ++ [b]).drop 2 ++ s.rq) := by
  cases h with
  | idNoise hst hb =>
    cases hctx.symm.trans (State.ctx_idle hst)
    exact .inl ⟨by simp [decodeByte, hb], rfl⟩
  | idAccept hst hb =>
    cases hctx.symm.trans (State.ctx_idle hst)
    exact .inl ⟨by simp [decodeByte, hb], rfl⟩
  | lenZero hst hb =>
    cases hctx.symm.trans (State.ctx_lengthPending hst)
    exact .inl ⟨by simp [decodeByte, hb], rfl⟩
  | lenAccept hst hb =>
    cases hctx.symm.trans (State.ctx_lengthPending hst)
    exact .inl ⟨by simp [decodeByte, hb], rfl⟩
  | accStore hst hf =>
    cases hctx.symm.trans (State.ctx_storing hst hf)
    exact .inl ⟨nofun, rfl⟩
  | accEmit bs hst hf hc hb =>
    cases hctx.symm.trans (State.ctx_full hst hf hc)
    exact .inl ⟨by simp [decodeByte, hb], rfl⟩
  | accRewind bs hst hf hc hb =>
    cases hctx.symm.trans (State.ctx_full hst hf hc)
    exact .inr ⟨if_neg hb, bs, hf, hc, rfl⟩

/-- Settles O46: intake is a byte operation, and among these only the rewind touches the queue. -/
theorem queueChangesOnlyByRewindTakeAndReset : Obligations.QueueChangesOnlyByRewindTakeAndReset := by
  unfold Obligations.QueueChangesOnlyByRewindTakeAndReset
  refine ⟨fun i b s t hi h => ?_, fun l s t h => ?_, fun b s t h => ?_, fun s t h => ?_, fun s => ⟨_, rfl, rfl⟩⟩
  · obtain ⟨⟨c, hctx, rfl⟩, hc⟩ := (exec_next_iff_consumed hi).1 h
    rcases hc.rq_cases hctx with ⟨hne, hq⟩ | ⟨heq, bs, hf, hcol, hq⟩
    · exact ⟨fun _ => hq, fun heq => absurd heq hne⟩
    · refine ⟨fun hne => absurd heq hne, fun _ => ⟨bs ++ [b], State.candidate_of_collected b hf hcol, ?_, hq,
        State.rewound_length b hf hcol⟩⟩
      rw [List.length_append, State.collected_length hcol]
      exact hf
  · rcases h with h | h
    · cases h; rfl
    · obtain ⟨v, -, rfl⟩ := execChkValidate_next h
      rfl
  · exact (execInTake_next h).2.exists_exec
  · obtain ⟨b, r, hq, hc⟩ := execRqTake_next h
    obtain ⟨i, hi, hexec⟩ := hc.exists_exec
    exact ⟨b, r, i, hq, hi, hexec⟩

/-! ### The load of the queue (R47) -/

/-- Outside an attempt the load is the queue's length alone. -/
theorem State.load_of_not_accumulating {t : State} {n : Nat} (ht : t.st ≠ .accumulating)
    (hlen : t.rq.length = n) : t.rq.length + t.pending = n := by
  rw [State.pending_of_not_accumulating ht, hlen, Nat.add_zero]

/-- A byte taken with the queue empty leaves a load within the Length of the attempt it belongs to, or, outside
an attempt, none. -/
theorem Consumed.load_of_empty {b : Byte} {s t : State} (h : Consumed b s t) (hq : s.rq = []) :
    (t.st = .accumulating ∧ t.rq.length + t.pending ≤ t.lenReg.toNat) ∨
    (s.st = .accumulating ∧ t.st = .idle ∧ t.out = none ∧ t.rq.length + t.pending = s.lenReg.toNat) ∨
    (t.st ≠ .accumulating ∧ t.rq.length + t.pending = 0) := by
  have hlen : s.rq.length = 0 := List.length_eq_zero_iff.2 hq
  cases h with
  | idNoise hst =>
    have hne : (s.quiet.raise (.syncNoise b)).st ≠ .accumulating := by simp [hst]
    exact .inr (.inr ⟨hne, State.load_of_not_accumulating hne hlen⟩)
  | idAccept => exact .inr (.inr ⟨nofun, State.load_of_not_accumulating nofun hlen⟩)
  | lenZero => exact .inr (.inr ⟨nofun, State.load_of_not_accumulating nofun hlen⟩)
  | lenAccept =>
    refine .inl ⟨rfl, ?_⟩
    rw [State.pending_accumulating rfl]
    simp [hq]
  | accStore hst hf =>
    refine .inl ⟨hst, ?_⟩
    simp only [State.pending_accumulating, hst, State.fill_succ_toNat hf, State.quiet_st, State.quiet_rq,
      State.quiet_lenReg]
    rw [s.blen_toNat] at hf
    omega
  | accEmit => exact .inr (.inr ⟨nofun, State.load_of_not_accumulating nofun hlen⟩)
  | accRewind bs hst hf hc =>
    have hlength : ((bs ++ [b]).drop 2 ++ s.rq).length = s.lenReg.toNat := by
      rw [List.length_append, State.rewound_length b hf hc, hlen, Nat.add_zero]
    exact .inr (.inl ⟨hst, rfl, rfl, State.load_of_not_accumulating nofun hlength⟩)

/-- Settles O52: `RQ.TAKE` pops the byte by which the load can grow, and `IN.TAKE` finds the queue empty. -/
theorem queueLoadNeverRisesInAReplay : Obligations.QueueLoadNeverRisesInAReplay := by
  unfold Obligations.QueueLoadNeverRisesInAReplay
  constructor
  · intro s t hinv ht
    obtain ⟨b, rq, hq, hc⟩ := execRqTake_next ht
    have hload : t.rq.length + t.pending ≤ rq.length + s.pending + 1 := by
      rcases hc.load_cases hinv.dec with ⟨hle, -⟩ | ⟨heq, -⟩
      · exact Nat.le_succ_of_le hle
      · exact heq.le
    rw [hq, List.length_cons]
    omega
  · intro s t b _ ht
    obtain ⟨hq, hc⟩ := execInTake_next ht
    exact hc.load_of_empty hq

/-! ### The step and the next byte of the pool (R44, R119 to R121) -/

/-- A step that takes from the queue runs the operation that its head decodes to, once it is popped. -/
theorem step_rqTake {s : State} {c : Ctx} {b : Byte} {r : List Byte} {rest : List Input}
    (hctx : s.ctx = some c) (hq : s.rq = b :: r) (hsel : selectPort s.rq s.inputs = .run .rqTake rest) :
    step s = exec (decodeByte c b) { s with rq := r, inputs := rest } :=
  calc step s = execRqTake { s with inputs := rest } := step_run hsel
    _ = consume b { s with rq := r, inputs := rest } := execRqTake_cons hq
    _ = exec (decodeByte c b) { s with rq := r, inputs := rest } := consume_eq_exec b hctx

/-- A step that takes from the source runs the operation that the offered byte decodes to. -/
theorem step_inTake {s : State} {c : Ctx} {b : Byte} {rest : List Input}
    (hctx : s.ctx = some c) (hq : s.rq = []) (hin : s.inputs = .offer b :: rest) :
    step s = exec (decodeByte c b) { s with inputs := rest } :=
  have hsel : selectPort s.rq s.inputs = .run (.inTake b) rest := by rw [hq, hin]; rfl
  calc step s = execInTake b { s with inputs := rest } := step_run hsel
    _ = consume b { s with inputs := rest } := execInTake_of_ready b hq
    _ = exec (decodeByte c b) { s with inputs := rest } := consume_eq_exec b hctx

/-- Settles O38: the ports select `IN.TAKE` or `RQ.TAKE`, and both are consumption of the next byte. -/
theorem stepRunsTheOperationOfTheNextByte : Obligations.StepRunsTheOperationOfTheNextByte := by
  unfold Obligations.StepRunsTheOperationOfTheNextByte
  refine ⟨fun s c b rest => step_inTake, fun s c b r hctx hq hin => ?_, fun s c b r l hctx hq hin => ?_⟩
  · have hsel : selectPort s.rq s.inputs = .run .rqTake s.inputs := by
      rcases hin with hin | ⟨x, l, hin⟩ | ⟨l, hin⟩ | ⟨x, l, hin⟩ <;> rw [hq, hin] <;> rfl
    exact step_rqTake hctx hq hsel
  · have hsel : selectPort s.rq s.inputs = .run .rqTake l := by rw [hq, hin]; rfl
    exact step_rqTake hctx hq hsel

end Sys2Proof.Machine

/-!
# Encoding: the dispatch of a byte and well-formed frames (R71 to R76, R118)

The dispatch of a byte is one equivalence (`decodeByte_eq_iff`): it answers the operation that stands in the
condition, is well-formed and is encoded by the byte. A frame is well-formed exactly if it is an Id, a Length
and as many bytes as the Length says, and is valid (`frameWF_cons_cons`); that is what a completed candidate is.
-/

namespace Sys2Proof.Machine

/-! ### The rows of the dispatch table (R71) -/

theorem decodeByte_idle_of_accepted {b : Byte} (hb : idTest b = true) : decodeByte .idle b = .idAccept b :=
  if_pos hb

theorem decodeByte_idle_of_noise {b : Byte} (hb : idTest b = false) : decodeByte .idle b = .idNoise b :=
  if_neg (Bool.eq_false_iff.1 hb)

theorem decodeByte_lengthPending_of_accepted {b : Byte} (hb : lenTest b = true) :
    decodeByte .lengthPending b = .lenAccept b :=
  if_pos hb

theorem decodeByte_lengthPending_of_zero {b : Byte} (hb : lenTest b = false) :
    decodeByte .lengthPending b = .lenZero b :=
  if_neg (Bool.eq_false_iff.1 hb)

theorem decodeByte_full_of_match (sum : Byte) : decodeByte (.full sum) sum = .accEmit sum :=
  if_pos rfl

theorem decodeByte_full_of_mismatch {sum b : Byte} (hb : b ≠ sum) : decodeByte (.full sum) b = .accRewind b :=
  if_neg hb

/-- The selected operation stands in the condition and its byte is one of its row. -/
theorem decodeByte_admitted (c : Ctx) (b : Byte) :
    admits c (decodeByte c b) = true ∧ (decodeByte c b).wf = true := by
  cases c with
  | idle =>
    cases hb : idTest b with
    | false => rw [decodeByte_idle_of_noise hb]; exact ⟨rfl, by rw [Instr.wf, hb]; rfl⟩
    | true => rw [decodeByte_idle_of_accepted hb]; exact ⟨rfl, hb⟩
  | lengthPending =>
    cases hb : lenTest b with
    | false => rw [decodeByte_lengthPending_of_zero hb]; exact ⟨rfl, by rw [Instr.wf, hb]; rfl⟩
    | true => rw [decodeByte_lengthPending_of_accepted hb]; exact ⟨rfl, hb⟩
  | storing => exact ⟨rfl, rfl⟩
  | full sum =>
    by_cases hb : b = sum
    · subst hb; rw [decodeByte_full_of_match]; exact ⟨decide_eq_true rfl, rfl⟩
    · rw [decodeByte_full_of_mismatch hb]; exact ⟨decide_eq_true hb, rfl⟩

/-- A well-formed operation that stands in the condition is the one its byte selects. -/
theorem decodeByte_of_admitted {c : Ctx} {i : Instr} {b : Byte} (hadm : admits c i = true)
    (hwf : i.wf = true) (henc : encode i = [b]) : decodeByte c b = i := by
  match c, i, hadm, hwf, henc with
  | .idle, .idAccept _, _, hb, rfl => exact decodeByte_idle_of_accepted hb
  | .idle, .idNoise _, _, hb, rfl => exact decodeByte_idle_of_noise (Bool.not_eq_eq_eq_not.mp hb)
  | .lengthPending, .lenAccept _, _, hb, rfl => exact decodeByte_lengthPending_of_accepted hb
  | .lengthPending, .lenZero _, _, hb, rfl =>
    exact decodeByte_lengthPending_of_zero (Bool.not_eq_eq_eq_not.mp hb)
  | .storing, .accStore _, _, _, rfl => rfl
  | .full _, .accEmit _, hsum, _, rfl =>
    obtain rfl := of_decide_eq_true hsum
    exact decodeByte_full_of_match _
  | .full _, .accRewind _, hsum, _, rfl => exact decodeByte_full_of_mismatch (of_decide_eq_true hsum)

/-- The dispatch and the encoder are inverse (R71, R72). -/
theorem decodeByte_eq_iff {c : Ctx} {b : Byte} {i : Instr} :
    decodeByte c b = i ↔ admits c i = true ∧ i.wf = true ∧ encode i = [b] := by
  constructor
  · rintro rfl
    obtain ⟨hadm, hwf⟩ := decodeByte_admitted c b
    exact ⟨hadm, hwf, encode_decodeByte c b⟩
  · rintro ⟨hadm, hwf, henc⟩
    exact decodeByte_of_admitted hadm hwf henc

theorem decode_eq_op_iff {c : Ctx} {bytes rest : List Byte} {i : Instr} :
    decode c bytes = .op i rest ↔ ∃ b, bytes = b :: rest ∧ decodeByte c b = i := by
  cases bytes with
  | nil => simp [decode]
  | cons b bs => simp [decode, and_comm]

/-- An operation that stands in a condition of the dispatch table is encoded by one byte (R85). -/
theorem exists_encode_of_admits {c : Ctx} {i : Instr} (hadm : admits c i = true) : ∃ b, encode i = [b] := by
  cases i with
  | idAccept b | idNoise b | lenZero b | lenAccept b | accStore b | accEmit b | accRewind b => exact ⟨b, rfl⟩
  | chkSum | chkValidate | inTake | rqTake | feed | reset => cases c <;> cases hadm

/-- Settles O16: the decoder dispatches on the first byte, and the dispatch is the encoder's inverse. -/
theorem decodeAndEncodeAgree : Obligations.DecodeAndEncodeAgree := by
  unfold Obligations.DecodeAndEncodeAgree
  intro c bytes i rest
  rw [decode_eq_op_iff]
  constructor
  · rintro ⟨b, rfl, hdec⟩
    obtain ⟨hadm, hwf, henc⟩ := decodeByte_eq_iff.1 hdec
    exact ⟨hadm, hwf, by rw [henc]; rfl⟩
  · rintro ⟨hadm, hwf, rfl⟩
    obtain ⟨b, henc⟩ := exists_encode_of_admits hadm
    exact ⟨b, by rw [henc]; rfl, decodeByte_of_admitted hadm hwf henc⟩

/-- Settles O18: the decoder evaluated on the written-out bytes. -/
theorem wordsOfTheSpecDecodeToTheirRows : Obligations.WordsOfTheSpecDecodeToTheirRows := by
  unfold Obligations.WordsOfTheSpecDecodeToTheirRows
  decide

/-! ### Which byte operations answer a next state (R71, R73) -/

/-- Where R71's table has a row, every byte is consumed. -/
theorem Consumed.exists_of_ctx {s : State} {c : Ctx} (hctx : s.ctx = some c) (b : Byte) :
    ∃ t, Consumed b s t := by
  rcases State.ctx_cases hctx with ⟨hst, -⟩ | ⟨hst, -⟩ | ⟨hst, hf, -⟩ | ⟨hst, hf, bs, hc, -⟩
  · cases hb : idTest b with
    | false => exact ⟨_, .idNoise hst hb⟩
    | true => exact ⟨_, .idAccept hst hb⟩
  · cases hb : lenTest b with
    | false => exact ⟨_, .lenZero hst hb⟩
    | true => exact ⟨_, .lenAccept hst hb⟩
  · exact ⟨_, .accStore hst hf⟩
  · by_cases hb : b = sum8 bs
    · exact ⟨_, .accEmit bs hst hf hc hb⟩
    · exact ⟨_, .accRewind bs hst hf hc hb⟩

/-- A byte operation answers a next state exactly if the byte selects it. -/
theorem exists_exec_next_iff {s : State} {c : Ctx} {i : Instr} {b : Byte} (hctx : s.ctx = some c)
    (hi : encode i = [b]) : (∃ t, exec i s = .next t) ↔ decodeByte c b = i := by
  constructor
  · rintro ⟨t, ht⟩
    obtain ⟨c', hctx', hsel⟩ := exec_next_selected hi ht
    obtain rfl := Option.some.inj (hctx.symm.trans hctx')
    exact hsel
  · intro hsel
    obtain ⟨t, hc⟩ := Consumed.exists_of_ctx hctx b
    exact ⟨t, (exec_next_iff_consumed hi).2 ⟨⟨c, hctx, hsel⟩, hc⟩⟩

/-- In a state of the invariant R71's table has a row. -/
theorem State.decInv.exists_ctx {s : State} (h : s.decInv) : ∃ c, s.ctx = some c := by
  obtain ⟨t, hc⟩ := h.exists_consumed 0#8
  exact hc.exists_ctx

/-- Settles O15: the one operation is that of the state's condition; the condition is known in each row. -/
theorem byteSelectionIsTotalAndExclusive : Obligations.ByteSelectionIsTotalAndExclusive := by
  unfold Obligations.ByteSelectionIsTotalAndExclusive
  intro s b hinv
  obtain ⟨c, hctx⟩ := hinv.dec.exists_ctx
  have henc := encode_decodeByte c b
  have hrow : ∀ {c'}, s.ctx = some c' → decodeByte c b = decodeByte c' b := fun hctx' => by
    rw [Option.some.inj (hctx.symm.trans hctx')]
  refine ⟨decodeByte c b, henc, (exists_exec_next_iff hctx henc).2 rfl,
    fun j hj ht => ((exists_exec_next_iff hctx hj).1 ht).symm, fun hst hb => ?_, fun hst hb => ?_,
    fun hst hb => ?_, fun hst hb => ?_, fun hst hf => ?_, fun hst hf => ?_⟩
  · exact (hrow (State.ctx_idle hst)).trans (decodeByte_idle_of_noise ((idTest_false_iff b).2 hb))
  · exact (hrow (State.ctx_idle hst)).trans (decodeByte_idle_of_accepted ((idTest_iff b).2 hb))
  · exact (hrow (State.ctx_lengthPending hst)).trans
      (decodeByte_lengthPending_of_zero ((lenTest_false_iff b).2 hb))
  · exact (hrow (State.ctx_lengthPending hst)).trans
      (decodeByte_lengthPending_of_accepted ((lenTest_iff b).2 hb))
  · exact hrow (State.ctx_storing hst hf)
  · obtain ⟨id, body, hc, -⟩ := hinv.dec.collected_eq hst
    have hfull := hrow (State.ctx_full hst hf hc)
    refine ⟨_, hc, fun hb => ?_, fun hb => hfull.trans (decodeByte_full_of_mismatch hb)⟩
    rw [hfull, ← hb, decodeByte_full_of_match]

/-- The bytes the Id test passes (R73). -/
theorem idTest_iff_range (b : Byte) :
    idTest b = true ↔ b.toNat ≤ 0x03 ∨ (0x08 ≤ b.toNat ∧ b.toNat ≤ 0x0B) := by
  revert b; decide

/-- Eight of the values below `0x0C` pass the Id test, and none from there on. -/
theorem countP_idTest : (List.range 256).countP (fun n => idTest (BitVec.ofNat 8 n)) = 8 := by
  have hlow : (List.range 0x0C).countP (fun n => idTest (BitVec.ofNat 8 n)) = 8 := by decide
  have hhigh : ((List.range 244).map (0x0C + ·)).countP (fun n => idTest (BitVec.ofNat 8 n)) = 0 := by
    simp only [List.countP_eq_zero, List.mem_map, List.mem_range, idTest_iff_range, BitVec.toNat_ofNat]
    omega
  rw [show 256 = 0x0C + 244 from rfl, List.range_add, List.countP_append, hlow, hhigh]

/-- Settles O19: in `Idle` the operation is selected by the Id test, whose bytes are two ranges of four. -/
theorem exactlyEightBytesStartAFrame : Obligations.ExactlyEightBytesStartAFrame := by
  unfold Obligations.ExactlyEightBytesStartAFrame
  refine ⟨fun s b hst => ⟨?_, ?_⟩, countP_idTest, ?_⟩
  · rw [exists_exec_next_iff (State.ctx_idle hst) rfl, decodeByte_eq_iff, ← idTest_iff_range]
    simp [admits, Instr.wf, encode]
  · have hnoise : idTest b = false ↔ (0x04 ≤ b.toNat ∧ b.toNat ≤ 0x07) ∨ 0x0C ≤ b.toNat := by
      rw [← Bool.not_eq_true, idTest_iff_range]
      omega
    rw [exists_exec_next_iff (State.ctx_idle hst) rfl, decodeByte_eq_iff, ← hnoise]
    simp [admits, Instr.wf, encode]
  · have hsplit := List.length_eq_countP_add_countP (fun n => idTest (BitVec.ofNat 8 n)) (l := List.range 256)
    rw [countP_idTest, List.length_range] at hsplit
    simp only [Bool.not_eq_true, Bool.decide_eq_false] at hsplit
    omega

/-! ### Well-formed frames (R75, R76) -/

/-- R75 read off an Id, a Length and the bytes after them; that there are three bytes follows from the Length. -/
theorem frameWF_cons_cons {id len : Byte} {body : List Byte} : frameWF (id :: len :: body) = true ↔
    idTest id = true ∧ lenTest len = true ∧ body.length = len.toNat ∧
      valid? (id :: len :: body) = some true := by
  have hmin : lenTest len = true → body.length = len.toNat → Config.frameMin ≤ (id :: len :: body).length :=
    fun hlen hbody => by
      have hpos : Config.lenMin ≤ len.toNat := of_decide_eq_true hlen
      rw [List.length_cons, List.length_cons, hbody]
      exact Nat.add_le_add_right hpos 2
  simp only [frameWF, Bool.and_eq_true, decide_eq_true_eq, bne_iff_ne, beq_iff_eq, ← lenTest_iff]
  constructor
  · rintro ⟨⟨⟨⟨-, hid⟩, hlen⟩, hbody⟩, hv⟩
    exact ⟨hid, hlen, hbody, hv⟩
  · rintro ⟨hid, hlen, hbody, hv⟩
    exact ⟨⟨⟨⟨hmin hlen hbody, hid⟩, hlen⟩, hbody⟩, hv⟩

theorem exists_cons_cons_of_frameWF {f : List Byte} (h : frameWF f = true) :
    ∃ id len body, f = id :: len :: body := by
  match f, h with
  | id :: len :: body, _ => exact ⟨id, len, body, rfl⟩

/-- A well-formed frame ends in the sum of the bytes before it. -/
theorem exists_content_of_frameWF {f : List Byte} (h : frameWF f = true) :
    ∃ id len c, f = id :: len :: c ++ [sum8 (id :: len :: c)] ∧ c.length + 1 = len.toNat := by
  obtain ⟨id, len, body, rfl⟩ := exists_cons_cons_of_frameWF h
  obtain ⟨-, hlen, hbody, hv⟩ := frameWF_cons_cons.1 h
  rcases List.eq_nil_or_concat' body with rfl | ⟨c, x, rfl⟩
  · exact absurd (BitVec.eq_of_toNat_eq hbody.symm) ((lenTest_iff len).1 hlen)
  · rw [← List.cons_append, ← List.cons_append, valid?_concat] at hv
    have hx : x = sum8 (id :: len :: c) := by simpa using hv
    exact ⟨id, len, c, by rw [hx]; rfl, by simpa using hbody⟩

theorem mkframe_eq (id : Byte) (c : List Byte) :
    mkframe id c = id :: BitVec.ofNat 8 (c.length + 1) ::
      (c ++ [sum8 (id :: BitVec.ofNat 8 (c.length + 1) :: c)]) := rfl

theorem frameWF_mkframe {id : Byte} {c : List Byte} (hid : idTest id = true) (hc : c.length ≤ 254) :
    frameWF (mkframe id c) = true := by
  have hlen : (BitVec.ofNat 8 (c.length + 1)).toNat = c.length + 1 := by
    rw [BitVec.toNat_ofNat]; omega
  rw [mkframe_eq, frameWF_cons_cons]
  refine ⟨hid, decide_eq_true ?_, ?_, ?_⟩
  · rw [hlen]; exact Nat.le_add_left 1 _
  · rw [hlen, List.length_append, List.length_singleton]
  · rw [← List.cons_append, ← List.cons_append, valid?_concat, beq_self_eq_true]

/-- Settles O35: the Length counts the content and the last byte, and the last byte is the sum. -/
theorem mkframeBuildsExactlyTheWellFormedFrames : Obligations.MkframeBuildsExactlyTheWellFormedFrames := by
  unfold Obligations.MkframeBuildsExactlyTheWellFormedFrames
  refine ⟨fun id c hid hc => frameWF_mkframe ((idTest_iff id).2 hid) hc, fun f hf => ?_⟩
  obtain ⟨id, len, c, rfl, hc⟩ := exists_content_of_frameWF hf
  have hlen : len = BitVec.ofNat 8 (c.length + 1) := by rw [hc, BitVec.ofNat_toNat, BitVec.setWidth_eq]
  simp [mkframe_eq, ← hlen]

/-! ### The frames the sink receives (R75, R118) -/

/-- The transaction of a well-formed frame carries its length and its error flag. -/
theorem mkTxn_ok {f : List Byte} (h : frameWF f = true) : (mkTxn f).ok := by
  obtain ⟨id, len, body, rfl⟩ := exists_cons_cons_of_frameWF h
  obtain ⟨-, -, hbody, -⟩ := frameWF_cons_cons.1 h
  have hlen : (mkTxn (id :: len :: body)).len.toNat = len.toNat + 2 := by
    have := len.isLt
    rw [mkTxn, BitVec.toNat_ofNat, List.length_cons, List.length_cons, hbody]
    omega
  exact ⟨h, by rw [hlen, ← hbody]; rfl, id, len, body, rfl, errFlag_eq id, hlen⟩

/-- From `s` to `t` the sink received well-formed frames and nothing else. -/
def Delivers (s t : State) : Prop :=
  ∃ fs : List (List Byte), (∀ f ∈ fs, frameWF f = true) ∧ t.sink = s.sink ++ fs.map mkTxn

namespace Delivers

variable {s t u : State}

theorem of_sink_eq (h : t.sink = s.sink) : Delivers s t :=
  ⟨[], nofun, by rw [h, List.map_nil, List.append_nil]⟩

theorem frame {f : List Byte} (hf : frameWF f = true) (h : t.sink = s.sink ++ [mkTxn f]) : Delivers s t :=
  ⟨[f], by simpa using hf, h⟩

theorem trans (h : Delivers s t) (h' : Delivers t u) : Delivers s u := by
  obtain ⟨fs, hfs, ht⟩ := h
  obtain ⟨gs, hgs, hu⟩ := h'
  refine ⟨fs ++ gs, fun f hf => (List.mem_append.1 hf).elim (hfs f) (hgs f), ?_⟩
  rw [hu, ht, List.map_append, List.append_assoc]

theorem sink_ok (h : Delivers s t) (hs : ∀ o ∈ s.sink, o.ok) : ∀ o ∈ t.sink, o.ok := by
  obtain ⟨fs, hfs, ht⟩ := h
  intro o ho
  rw [ht] at ho
  rcases List.mem_append.1 ho with hold | hnew
  · exact hs o hold
  · obtain ⟨f, hf, rfl⟩ := List.mem_map.1 hnew
    exact mkTxn_ok (hfs f hf)

end Delivers

/-- A frame is delivered only by `ACC.EMIT`, where the candidate is well-formed. -/
theorem Consumed.delivers {b : Byte} {s t : State} (h : Consumed b s t) (hs : s.decInv) : Delivers s t := by
  cases h with
  | idNoise | idAccept | lenZero | lenAccept | accStore | accRewind => exact .of_sink_eq rfl
  | accEmit bs hst hf hc hb =>
    obtain ⟨id, body, hcand, hid, hlen, hbody⟩ := hs.candidate_eq hst hf hc b
    have hv : valid? (bs ++ [b]) = some true := by rw [valid?_concat, hb, beq_self_eq_true]
    refine .frame (f := bs ++ [b]) ?_ rfl
    rw [hcand] at hv ⊢
    exact frameWF_cons_cons.2 ⟨hid, hlen, hbody, hv⟩

namespace State.Inv

variable {s t : State}

theorem delivers_of_rqTake (h : s.Inv) (ht : execRqTake s = .next t) : Delivers s t := by
  obtain ⟨b, rq, -, hc⟩ := execRqTake_next ht
  exact hc.delivers h.dec

theorem delivers_of_drain {n : Nat} (h : s.Inv) (ht : drain n s = .next t) : Delivers s t :=
  (drain_next_rel (R := fun s t => s.Inv → Delivers s t) (fun _ _ => .of_sink_eq rfl)
    (fun _ _ _ hu hut hs => (hs.delivers_of_rqTake hu).trans (hut (hs.after_rqTake hu))) ht).2 h

theorem delivers_of_feedBytes {bs : List Byte} (h : s.Inv) (ht : feedBytes bs s = .next t) :
    Delivers s t := by
  induction bs generalizing s with
  | nil => cases ht; exact .of_sink_eq rfl
  | cons b bs ih =>
    obtain ⟨u, v, hu, hv, ht⟩ := feedBytes_cons_next ht
    have huInv := h.after_inTake hu
    have hsu : Delivers s u := (execInTake_next hu).2.delivers h.dec
    exact hsu.trans ((huInv.delivers_of_drain hv).trans (ih (huInv.after_drain hv) ht))

/-- Every operation the ports select delivers well-formed frames only. -/
theorem delivers_of_portOp {i : Instr} (h : s.Inv) (hi : PortOp i) (ht : exec i s = .next t) :
    Delivers s t := by
  cases hi with
  | chkSum => cases ht; exact .of_sink_eq rfl
  | chkValidate =>
    obtain ⟨v, -, rfl⟩ := execChkValidate_next ht
    exact .of_sink_eq rfl
  | inTake => exact (execInTake_next ht).2.delivers h.dec
  | rqTake => exact h.delivers_of_rqTake ht
  | feed => exact (h.quiet_fn none).delivers_of_feedBytes (execFeed_next ht).2
  | reset => cases ht; exact .of_sink_eq rfl

end State.Inv

/-- Settles O24: the step waits or runs a port operation, which delivers well-formed frames only. -/
theorem sinkReceivesOnlyWellFormedFrames : Obligations.SinkReceivesOnlyWellFormedFrames := by
  unfold Obligations.SinkReceivesOnlyWellFormedFrames
  intro s t hinv hok hstep
  rcases step_cases hstep with ⟨i, rest, hsel, hexec⟩ | ⟨rest, -, rfl⟩
  · obtain ⟨hport, hsub⟩ := selectPort_run hsel
    exact ((hinv.of_inputs_subset hsub).delivers_of_portOp hport hexec).sink_ok hok
  · exact hok

end Sys2Proof.Machine

/-!
# The frame decoder: progress, the replay, the seven byte operations (R86 to R97)

A port operation stops only outside its enabling condition (`Enabled`), and the ports select none outside it.
The drain inside `FEED` and the run that empties the queue are the same chain of `RQ.TAKE`s, bounded by the
measure of R97, which each of them lowers. Each byte operation's effect is its constructor of `Consumed`, read
off where the state and the byte select it (`Consumed.exec_eq`).
-/

namespace Sys2Proof.Machine

/-! ### The measure of R97 -/

/-- An attempt lacks at most as many bytes as its Length asks for. -/
theorem State.decInv.lacking_le {s : State} (h : s.decInv) : s.lacking ≤ 255 := by
  by_cases hst : s.st = .accumulating
  · obtain ⟨-, hfill, -⟩ := (State.decInv_accumulating hst).1 h
    have := s.lenReg.isLt
    rw [State.lacking_accumulating hst, s.blen_toNat]
    omega
  · rw [State.lacking_of_not_accumulating hst]
    omega

theorem State.replayMeasure_of_queue {s : State} {b : Byte} {q : List Byte} (hq : s.rq = b :: q) :
    s.replayMeasure = State.replayMeasure { s with rq := q } + 256 := by
  show 256 * (s.rq.length + s.pending) + s.lacking = 256 * (q.length + s.pending) + s.lacking + 256
  rw [hq, List.length_cons]
  omega

theorem State.Inv.replayMeasure_lt_drainBound {s : State} (h : s.Inv) : s.replayMeasure < Config.drainBound := by
  obtain ⟨-, -, -, hdepth⟩ := sizes
  have hload := h.bound
  have hlack := h.dec.lacking_le
  rw [hdepth] at hload
  rw [State.replayMeasure, Config.drainBound]
  omega

/-- `RQ.TAKE` pops a byte, which is worth 256, and its consumption gives back less. -/
theorem State.Inv.replayMeasure_of_rqTake {s t : State} (h : s.Inv) (ht : execRqTake s = .next t) :
    t.replayMeasure < s.replayMeasure := by
  obtain ⟨b, q, hq, hc⟩ := execRqTake_next ht
  rw [State.replayMeasure_of_queue hq]
  exact hc.replayMeasure_lt h.dec

/-- Settles O26: the bound adds R47's bound on the queue and what an attempt can lack. -/
theorem replayMeasureFalls : Obligations.ReplayMeasureFalls := by
  unfold Obligations.ReplayMeasureFalls
  exact fun s hinv => ⟨hinv.replayMeasure_lt_drainBound, fun t ht => hinv.replayMeasure_of_rqTake ht⟩

/-! ### Every enabled port operation answers a next state (R93, R94) -/

/-- Where a port operation has a meaning: intake and the burst with an empty queue (R119, R123), `RQ.TAKE` with
a byte in it (R120), `valid` on at least one byte (R107). -/
inductive Enabled (rq : List Byte) : Instr → Prop where
  | chkSum (bytes : List Byte) : Enabled rq (.chkSum bytes)
  | chkValidate {bytes : List Byte} (hne : bytes ≠ []) : Enabled rq (.chkValidate bytes)
  | inTake (b : Byte) (hq : rq = []) : Enabled rq (.inTake b)
  | rqTake (hq : rq ≠ []) : Enabled rq .rqTake
  | feed (burst : List Byte) (hq : rq = []) : Enabled rq (.feed burst)
  | reset : Enabled rq .reset

theorem ne_nil_of_evalValid_wf {bytes : List Byte} (h : (Input.evalValid bytes).wf = true) : bytes ≠ [] := by
  simpa [Input.wf] using h

/-- What a well-formed move of the outside asks for is enabled once the queue is empty. -/
theorem enabled_of_request {i : Instr} {x : Input} (hi : request i = some x) (hx : x.wf = true) :
    Enabled [] i := by
  cases i with
  | inTake b => exact .inTake b rfl
  | feed burst => exact .feed burst rfl
  | reset => exact .reset
  | chkSum bytes => exact .chkSum bytes
  | chkValidate bytes => cases hi; exact .chkValidate (ne_nil_of_evalValid_wf hx)
  | _ => cases hi

/-- With well-formed moves before the block the ports select only what is enabled. -/
theorem enabled_of_selectPort {rq : List Byte} {l rest : List Input} {i : Instr}
    (h : selectPort rq l = .run i rest) (hwf : ∀ x ∈ l, x.wf = true) : Enabled rq i := by
  by_cases hq : rq = []
  · subst hq
    rcases selectPort_empty l with ⟨hsel, -⟩ | ⟨_, hsel, -⟩ | ⟨x, j, _, rfl, hj, hsel⟩ <;>
      cases hsel.symm.trans h
    exact enabled_of_request hj (hwf x List.mem_cons_self)
  · rcases selectPort_queue hq l with
      ⟨_, -, hsel⟩ | ⟨bytes, _, -, hsel⟩ | ⟨bytes, _, rfl, hsel⟩ | ⟨_, hsel, -⟩ <;>
      cases hsel.symm.trans h
    · exact .reset
    · exact .chkSum bytes
    · exact .chkValidate (ne_nil_of_evalValid_wf (hwf _ List.mem_cons_self))
    · exact .rqTake hq

theorem exists_execChkValidate {bytes : List Byte} (hne : bytes ≠ []) (s : State) :
    ∃ t, execChkValidate bytes s = .next t := by
  rw [← List.dropLast_concat_getLast hne]
  simp [execChkValidate]

theorem rq_eq_nil_of_drain {n : Nat} {s t : State} (h : drain n s = .next t) : t.rq = [] :=
  (drain_next_rel (R := fun _ _ => True) (fun _ => trivial) (fun _ _ _ _ _ => trivial) h).1

namespace State.Inv

variable {s : State}

theorem exists_inTake (h : s.Inv) (hq : s.rq = []) (b : Byte) : ∃ t, execInTake b s = .next t := by
  obtain ⟨t, hc⟩ := h.dec.exists_consumed b
  exact ⟨t, (execInTake_of_ready b hq).trans ((consume_iff b s t).2 hc)⟩

theorem exists_rqTake (h : s.Inv) (hq : s.rq ≠ []) : ∃ t, execRqTake s = .next t := by
  obtain ⟨b, q, hbq⟩ := List.exists_cons_of_ne_nil hq
  obtain ⟨t, hc⟩ := State.decInv.exists_consumed (s := { s with rq := q }) h.dec b
  exact ⟨t, (execRqTake_cons hbq).trans ((consume_iff b _ t).2 hc)⟩

/-- A drain with at least the measure as fuel empties the queue (R97). -/
theorem exists_drain_of_le {n : Nat} (h : s.Inv) (hn : s.replayMeasure ≤ n) : ∃ t, drain n s = .next t := by
  induction n generalizing s with
  | zero =>
    refine ⟨s, drain_of_ready 0 (by_contra fun hq => ?_)⟩
    obtain ⟨u, hu⟩ := h.exists_rqTake hq
    have := h.replayMeasure_of_rqTake hu
    omega
  | succ n ih =>
    by_cases hq : s.rq = []
    · exact ⟨s, drain_of_ready _ hq⟩
    · obtain ⟨u, hu⟩ := h.exists_rqTake hq
      rw [drain_succ_of_take hu]
      exact ih (h.after_rqTake hu) (Nat.le_of_lt_succ ((h.replayMeasure_of_rqTake hu).trans_le hn))

theorem exists_drain (h : s.Inv) : ∃ t, drain Config.drainBound s = .next t :=
  h.exists_drain_of_le h.replayMeasure_lt_drainBound.le

theorem exists_feedBytes (h : s.Inv) (hq : s.rq = []) (bs : List Byte) : ∃ t, feedBytes bs s = .next t := by
  induction bs generalizing s with
  | nil => exact ⟨s, feedBytes_nil s⟩
  | cons b bs ih =>
    obtain ⟨u, hu⟩ := h.exists_inTake hq b
    obtain ⟨v, hv⟩ := (h.after_inTake hu).exists_drain
    rw [feedBytes_cons_of_next hu hv]
    exact ih ((h.after_inTake hu).after_drain hv) (rq_eq_nil_of_drain hv)

theorem exists_exec_of_enabled {i : Instr} (h : s.Inv) (hi : Enabled s.rq i) : ∃ t, exec i s = .next t := by
  cases hi with
  | chkSum => exact ⟨_, rfl⟩
  | chkValidate hne => exact exists_execChkValidate hne s
  | inTake b hq => exact h.exists_inTake hq b
  | rqTake hq => exact h.exists_rqTake hq
  | feed burst hq =>
    obtain ⟨t, ht⟩ := (h.quiet_fn none).exists_feedBytes hq burst
    exact ⟨t, (execFeed_of_ready burst hq).trans ht⟩
  | reset => exact ⟨_, rfl⟩

theorem exists_step (h : s.Inv) : ∃ t, step s = .next t := by
  cases hsel : selectPort s.rq s.inputs with
  | idle rest => exact ⟨_, step_idle hsel⟩
  | run i rest =>
    have hrest := h.of_inputs_subset (selectPort_run hsel).2
    rw [step_run hsel]
    exact hrest.exists_exec_of_enabled (enabled_of_selectPort hsel (List.all_eq_true.1 h.inputsWF))

end State.Inv

/-- Settles O23: a step waits or runs an enabled operation, and the next state meets the invariant, whose
item 4 bounds the queue. -/
theorem everyStepAnswersANextState : Obligations.EveryStepAnswersANextState := by
  unfold Obligations.EveryStepAnswersANextState
  intro s hinv
  obtain ⟨t, ht⟩ := hinv.exists_step
  exact ⟨t, ht, (Nat.le_add_right _ _).trans (everyStepKeepsTheInvariant s t hinv ht).bound⟩

/-! ### The replay ends (R97) -/

/-- If the outside does nothing, the machine's steps are those of the drain. -/
theorem exists_run_of_drain {n : Nat} {s t : State} (hin : s.inputs = []) (h : drain n s = .next t) :
    ∃ k, k ≤ n ∧ run k s = .next t := by
  induction n generalizing s with
  | zero =>
    obtain ⟨-, rfl⟩ | ⟨_, _, hm, -⟩ := drain_next h
    · exact ⟨0, le_rfl, rfl⟩
    · cases hm
  | succ n ih =>
    obtain ⟨-, rfl⟩ | ⟨m, u, hm, hu, hrest⟩ := drain_next h
    · exact ⟨0, Nat.zero_le _, rfl⟩
    · cases hm
      obtain ⟨b, q, hq, hc⟩ := execRqTake_next hu
      have hsel : selectPort s.rq s.inputs = .run .rqTake s.inputs := by rw [hq, hin]; rfl
      obtain ⟨k, hk, hrun⟩ := ih (hc.inputs_eq.trans hin) hrest
      exact ⟨k + 1, Nat.succ_le_succ hk, (run_succ_of_step ((step_run hsel).trans hu) k).trans hrun⟩

/-- Settles O27: the run follows the drain, for which the bound of R97 is fuel enough. -/
theorem replayAlwaysDrains : Obligations.ReplayAlwaysDrains := by
  unfold Obligations.ReplayAlwaysDrains
  intro s hinv hin
  obtain ⟨t, ht⟩ := hinv.exists_drain
  obtain ⟨k, hk, hrun⟩ := exists_run_of_drain hin ht
  exact ⟨k, t, hk, hrun, rq_eq_nil_of_drain ht, hinv.after_drain ht⟩

/-! ### The effect of each byte operation (R86 to R92) -/

/-- The operation that the state and the byte select has the effect of consuming the byte. -/
theorem Consumed.exec_eq {b : Byte} {s t : State} {c : Ctx} {i : Instr} (h : Consumed b s t)
    (hctx : s.ctx = some c) (hsel : decodeByte c b = i) : exec i s = .next t := by
  subst hsel
  exact (consume_eq_exec b hctx).symm.trans ((consume_iff b s t).2 h)

/-- `sum8` is the exact sum modulo 256 (R105). -/
theorem eq_sum8_iff {b : Byte} {bs : List Byte} : b = sum8 bs ↔ b.toNat = (bs.map BitVec.toNat).sum % 256 := by
  rw [← BitVec.toNat_inj, sum8, BitVec.toNat_ofNat]

theorem mkTxn_len_of_length {f : List Byte} {n : Idx} (h : f.length = n.toNat) : (mkTxn f).len = n := by
  rw [mkTxn, h, BitVec.ofNat_toNat, BitVec.setWidth_eq]

/-- Settles O1: where the reserved bits are not clear, `Idle` selects `ID.NOISE`. -/
theorem idNoiseDropsByteAndWritesNothing : Obligations.IdNoiseDropsByteAndWritesNothing := by
  unfold Obligations.IdNoiseDropsByteAndWritesNothing
  intro s b hst hb
  have htest := (idTest_false_iff b).2 hb
  exact ⟨_, (Consumed.idNoise hst htest).exec_eq (State.ctx_idle hst) (decodeByte_idle_of_noise htest),
    hst, rfl, rfl, rfl, fun _ => rfl, rfl, rfl, rfl, rfl, rfl, rfl⟩

/-- Settles O2: where the reserved bits are clear, `Idle` selects `ID.ACCEPT`. -/
theorem idAcceptCachesIdAndAwaitsLength : Obligations.IdAcceptCachesIdAndAwaitsLength := by
  unfold Obligations.IdAcceptCachesIdAndAwaitsLength
  intro s b hst hb
  have htest := (idTest_iff b).2 hb
  exact ⟨_, (Consumed.idAccept hst htest).exec_eq (State.ctx_idle hst) (decodeByte_idle_of_accepted htest),
    rfl, rfl, rfl, rfl, fun _ => rfl, rfl, rfl, rfl, rfl, rfl, rfl⟩

/-- Settles O3: the zero byte in `LengthPending` selects `LEN.ZERO`. -/
theorem lenZeroDropsIdAndReturnsToIdle : Obligations.LenZeroDropsIdAndReturnsToIdle := by
  unfold Obligations.LenZeroDropsIdAndReturnsToIdle
  intro s hst
  have htest := (lenTest_false_iff 0#8).2 rfl
  exact ⟨_, (Consumed.lenZero hst htest).exec_eq (State.ctx_lengthPending hst)
      (decodeByte_lengthPending_of_zero htest),
    rfl, rfl, rfl, fun _ => rfl, rfl, rfl, rfl, rfl, rfl, rfl⟩

/-- Settles O4: a non-zero byte in `LengthPending` selects `LEN.ACCEPT`; its two stores are to cells 0 and 1. -/
theorem lenAcceptOpensFrameBuffer : Obligations.LenAcceptOpensFrameBuffer := by
  unfold Obligations.LenAcceptOpensFrameBuffer
  intro s b hst hb
  have htest := (lenTest_iff b).2 hb
  have hlen : 1 ≤ b.toNat := of_decide_eq_true htest
  refine ⟨_, (Consumed.lenAccept hst htest).exec_eq (State.ctx_lengthPending hst)
      (decodeByte_lengthPending_of_accepted htest),
    rfl, rfl, rfl, ?_, ?_, fun a ha0 ha1 => ?_, State.blen_toNat _, ?_, rfl, rfl, rfl, rfl, rfl, rfl⟩
  · exact (Memory.read_write_ne _ b Nat.zero_ne_one).trans (Memory.read_write_same _ 0 s.idReg)
  · exact Memory.read_write_same _ 1 b
  · exact (Memory.read_write_ne _ b ha1).trans (Memory.read_write_ne _ s.idReg ha0)
  · rw [State.blen_toNat, BitVec.toNat_ofNat]
    exact Nat.lt_add_of_pos_left hlen

/-- Settles O5: before the last position `Accumulating` selects `ACC.STORE`, and `fill` does not wrap. -/
theorem accStoreWritesCellFillAndAdvances : Obligations.AccStoreWritesCellFillAndAdvances := by
  unfold Obligations.AccStoreWritesCellFillAndAdvances
  intro s b hst hf
  exact ⟨_, (Consumed.accStore hst hf).exec_eq (State.ctx_storing hst hf) rfl,
    hst, Memory.read_write_same _ _ b, fun a ha => Memory.read_write_ne _ b ha, State.fill_succ_toNat hf,
    rfl, rfl, rfl, rfl, rfl, rfl, rfl, rfl⟩

/-- Settles O6: the byte equal to the sum selects `ACC.EMIT`, and the candidate has `blen` bytes. -/
theorem accEmitDeliversFrameOnMatch : Obligations.AccEmitDeliversFrameOnMatch := by
  unfold Obligations.AccEmitDeliversFrameOnMatch
  intro s b bs hst hf hc hb
  obtain rfl := eq_sum8_iff.2 hb
  have hlen : (bs ++ [sum8 bs]).length = s.blen.toNat := by
    rw [List.length_append, State.collected_length hc]
    exact hf
  exact ⟨_, mkTxn (bs ++ [sum8 bs]), (Consumed.accEmit bs hst hf hc rfl).exec_eq (State.ctx_full hst hf hc)
      (decodeByte_full_of_match _),
    rfl, rfl, mkTxn_len_of_length hlen, hlen, errFlag_eq _, rfl, rfl, rfl, rfl, rfl, rfl, rfl⟩

/-- Settles O7: any other byte selects `ACC.REWIND`, which returns as many bytes as the Length asked for. -/
theorem accRewindRequeuesAllAfterLength : Obligations.AccRewindRequeuesAllAfterLength := by
  unfold Obligations.AccRewindRequeuesAllAfterLength
  intro s b bs _ hst hf hc hb
  have hne : b ≠ sum8 bs := fun heq => hb (eq_sum8_iff.1 heq)
  exact ⟨_, (Consumed.accRewind bs hst hf hc hne).exec_eq (State.ctx_full hst hf hc)
      (decodeByte_full_of_mismatch hne),
    rfl, rfl, State.rewound_length b hf hc, rfl, rfl, rfl, rfl, rfl, rfl⟩

/-! ### The transitions of `st` (R93) -/

/-- Settles O45: each constructor of `Consumed` is one row, in the condition that selects its operation. -/
theorem transitionTableOfTheDecoderState : Obligations.TransitionTableOfTheDecoderState := by
  unfold Obligations.TransitionTableOfTheDecoderState
  refine ⟨fun i b s t hi h => ?_, fun s t h => by cases h; rfl⟩
  obtain ⟨⟨c, hctx, rfl⟩, hc⟩ := (exec_next_iff_consumed hi).1 h
  cases hc with
  | idNoise hst hb =>
    cases hctx.symm.trans (State.ctx_idle hst)
    simp [decodeByte_idle_of_noise hb, hst]
  | idAccept hst hb =>
    cases hctx.symm.trans (State.ctx_idle hst)
    simp [decodeByte_idle_of_accepted hb, hst]
  | lenZero hst hb =>
    cases hctx.symm.trans (State.ctx_lengthPending hst)
    simp [decodeByte_lengthPending_of_zero hb, hst]
  | lenAccept hst hb =>
    cases hctx.symm.trans (State.ctx_lengthPending hst)
    simp [decodeByte_lengthPending_of_accepted hb, hst]
  | accStore hst hf =>
    cases hctx.symm.trans (State.ctx_storing hst hf)
    simp [decodeByte, hst]
  | accEmit bs hst hf hcol hb =>
    cases hctx.symm.trans (State.ctx_full hst hf hcol)
    simp [decodeByte, hb, hst]
  | accRewind bs hst hf hcol hb =>
    cases hctx.symm.trans (State.ctx_full hst hf hcol)
    simp [decodeByte_full_of_mismatch hb, hst]

/-! ### Bursts that need no replay (R88, R95) -/

/-- A byte of a burst that leaves the queue empty is one turn of the loop of R123. -/
theorem Consumed.feedBytes_cons {b : Byte} {s u : State} (hc : Consumed b s u) (hq : s.rq = [])
    (huq : u.rq = []) (bs : List Byte) : feedBytes (b :: bs) s = feedBytes bs u :=
  feedBytes_cons_of_next ((execInTake_of_ready b hq).trans ((consume_iff b s u).2 hc)) (drain_of_ready _ huq)

/-- Bytes that do not fill the buffer are each stored by `ACC.STORE` (R90). -/
theorem exists_feedBytes_stored {s : State} {bs : List Byte} (x : List Byte) (hst : s.st = .accumulating)
    (hq : s.rq = []) (hc : s.collected = some bs) (hf : s.fill.toNat + x.length < s.blen.toNat) :
    ∃ t, feedBytes x s = .next t ∧ t.st = .accumulating ∧ t.lenReg = s.lenReg ∧
      t.fill.toNat = s.fill.toNat + x.length ∧ t.collected = some (bs ++ x) ∧ t.rq = [] ∧ t.sink = s.sink := by
  induction x generalizing s bs with
  | nil => exact ⟨s, feedBytes_nil s, hst, rfl, rfl, by rw [hc, List.append_nil], hq, rfl⟩
  | cons b x ih =>
    rw [List.length_cons] at hf ⊢
    have hroom : s.fill.toNat + 1 < s.blen.toNat := by omega
    have hfill := State.fill_succ_toNat hroom
    have hrest : (s.fill + 1#9).toNat + x.length < s.blen.toNat := by omega
    obtain ⟨t, ht, htst, htlen, htfill, htc, htq, htsink⟩ := ih
      (s := { s.quiet with buf := s.stored b, fill := s.fill + 1#9 }) hst hq (State.collected_stored hroom hc) hrest
    refine ⟨t, ((Consumed.accStore hst hroom).feedBytes_cons hq hq x).trans ht, htst, htlen, ?_, ?_, htq, htsink⟩
    · rw [htfill, hfill]; omega
    · rw [htc, ← List.append_cons]

/-- Settles O47: the burst's loop is a chain of stores. -/
theorem bulkStoreEqualsByteByByte : Obligations.BulkStoreEqualsByteByByte := by
  unfold Obligations.BulkStoreEqualsByteByByte
  intro s bs x _ hst hq hc hf
  obtain ⟨t, ht, hend⟩ := exists_feedBytes_stored (s := s.quiet) x hst hq hc hf
  exact ⟨t, (execFeed_of_ready x hq).trans ht, hend⟩

/-- Settles O51: the burst is `ID.ACCEPT` and then `LEN.ZERO`, after which `Idle` tests the next byte. -/
theorem zeroLengthMakesTheNextByteAFreshId : Obligations.ZeroLengthMakesTheNextByteAFreshId := by
  unfold Obligations.ZeroLengthMakesTheNextByteAFreshId
  intro s id _ hst hq hid
  have haccept := Consumed.idAccept (s := s.quiet) hst ((idTest_iff id).2 hid)
  have hzero := Consumed.lenZero (s := { s.quiet with idReg := id, st := .lengthPending }) rfl
    ((lenTest_false_iff 0#8).2 rfl)
  refine ⟨_, (execFeed_of_ready _ hq).trans ((haccept.feedBytes_cons hq hq _).trans
    (hzero.feedBytes_cons hq hq _)), rfl, hq, rfl, fun b => ⟨fun hb => ?_, fun hb => ?_⟩⟩
  · exact (exists_exec_next_iff (State.ctx_idle rfl) rfl).2 (decodeByte_idle_of_accepted ((idTest_iff b).2 hb))
  · exact (exists_exec_next_iff (State.ctx_idle rfl) rfl).2 (decodeByte_idle_of_noise ((idTest_false_iff b).2 hb))

end Sys2Proof.Machine

/-!
# The checksum validator (R105 to R110)

`sum8` is a sum in the group of bytes: it splits over an append, and changing one summand changes it. `valid`
compares the last byte with the sum of the bytes before it, and so finds any single changed byte.
-/

namespace Sys2Proof.Machine

/-! ### The laws of `sum8` (R106) -/

@[simp] theorem sum8_append (s t : List Byte) : sum8 (s ++ t) = sum8 s + sum8 t := by
  induction s with
  | nil => rw [List.nil_append, sum8_nil, BitVec.zero_add]
  | cons b s ih => rw [List.cons_append, sum8_cons, sum8_cons, ih, BitVec.add_assoc]

theorem sum8_singleton (b : Byte) : sum8 [b] = b := by
  rw [sum8_cons, sum8_nil, BitVec.add_zero]

theorem sum8_eq_of_perm {s t : List Byte} (h : s.Perm t) : sum8 s = sum8 t := by
  rw [sum8, sum8, (h.map BitVec.toNat).sum_eq]

/-- Replacing one byte keeps the sum only if the byte was there already. -/
theorem sum8_set_eq_iff {s : List Byte} {i : Nat} (h : i < s.length) (x : Byte) :
    sum8 (s.set i x) = sum8 s ↔ x = s[i] := by
  induction s generalizing i with
  | nil => cases h
  | cons b s ih =>
    cases i with
    | zero => rw [List.set_cons_zero, sum8_cons, sum8_cons, BitVec.add_left_inj, List.getElem_cons_zero]
    | succ i =>
      rw [List.set_cons_succ, sum8_cons, sum8_cons, BitVec.add_right_inj]
      exact ih (Nat.lt_of_succ_lt_succ h)

/-- Settles O33: the laws of `sum8` over the group of bytes, read as natural numbers. -/
theorem sumObeysTheIncrementalLaws : Obligations.SumObeysTheIncrementalLaws := by
  unfold Obligations.SumObeysTheIncrementalLaws
  refine ⟨fun s x => ?_, fun s t => ?_, fun _ _ => sum8_eq_of_perm⟩
  · rw [sum8_append, sum8_singleton, BitVec.toNat_add]
  · rw [sum8_append, BitVec.toNat_add]

/-! ### `valid` on a sequence with a last byte (R107) -/

theorem valid?_concat_eq_true_iff {s : List Byte} {x : Byte} : valid? (s ++ [x]) = some true ↔ x = sum8 s := by
  rw [valid?_concat, Option.some_inj, beq_iff_eq]

theorem valid?_concat_eq_false_iff {s : List Byte} {x : Byte} : valid? (s ++ [x]) = some false ↔ x ≠ sum8 s := by
  rw [valid?_concat, Option.some_inj, beq_eq_false_iff_ne]

/-- A valid sequence has a last byte, and it is the sum of the others. -/
theorem exists_concat_of_valid? {f : List Byte} (h : valid? f = some true) : ∃ s, f = s ++ [sum8 s] := by
  rcases List.eq_nil_or_concat' f with rfl | ⟨s, x, rfl⟩
  · cases h
  · exact ⟨s, by rw [valid?_concat_eq_true_iff.1 h]⟩

/-- One changed byte leaves either the sum or the last byte as it was, and changes the other (R110). -/
theorem valid?_set_eq_false {f : List Byte} {i : Nat} {x : Byte} (hv : valid? f = some true)
    (h : i < f.length) (hx : x ≠ f[i]) : valid? (f.set i x) = some false := by
  obtain ⟨s, rfl⟩ := exists_concat_of_valid? hv
  by_cases hi : i < s.length
  · rw [List.getElem_append_left hi] at hx
    rw [List.set_append_left _ _ hi, valid?_concat_eq_false_iff]
    exact fun heq => hx ((sum8_set_eq_iff hi x).1 heq.symm)
  · obtain rfl : i = s.length := by
      rw [List.length_append, List.length_singleton] at h
      omega
    rw [List.getElem_concat_length rfl] at hx
    rw [List.set_append_right _ _ le_rfl, Nat.sub_self, List.set_cons_zero, valid?_concat_eq_false_iff]
    exact hx

/-! ### The two pure functions as operations (R105, R107) -/

/-- Where `valid` has a result, `CHK.VALIDATE` shows it and keeps everything else. -/
theorem exec_chkValidate_of_valid? {f : List Byte} {v : Bool} (h : valid? f = some v) (s : State) :
    exec (.chkValidate f) s = .next { s.quiet with fn := some (.valid v) } := by
  simp only [exec, execChkValidate, h]

/-- Settles O9: on `bs ++ [x]` the result is whether `x` is the sum of `bs`. -/
theorem chkValidateComparesLastByte : Obligations.ChkValidateComparesLastByte := by
  unfold Obligations.ChkValidateComparesLastByte
  intro s bs x
  exact ⟨_, _, exec_chkValidate_of_valid? (valid?_concat bs x) s, rfl, beq_iff_eq.trans eq_sum8_iff,
    rfl, rfl, rfl, rfl, fun _ => rfl, rfl, rfl, rfl, rfl, rfl⟩

/-- Settles O32: `valid` of the changed sequence is false, and `CHK.VALIDATE` shows it. -/
theorem singleByteCorruptionIsDetected : Obligations.SingleByteCorruptionIsDetected := by
  unfold Obligations.SingleByteCorruptionIsDetected
  intro s f i x hv h hx
  exact ⟨_, exec_chkValidate_of_valid? (valid?_set_eq_false hv h hx) s, rfl⟩

/-- Settles O8: `sum8` is total, so `CHK.SUM` always shows it. -/
theorem chkSumResultIsSumModulo256 : Obligations.ChkSumResultIsSumModulo256 := by
  unfold Obligations.ChkSumResultIsSumModulo256
  intro s l
  exact ⟨_, sum8 l, rfl, rfl, eq_sum8_iff.1 rfl, fun hl => by rw [hl, sum8_nil],
    rfl, rfl, rfl, rfl, fun _ => rfl, rfl, rfl, rfl, rfl, rfl⟩

/-- Settles O10: `valid` has no result on the empty sequence. -/
theorem chkValidateRefusesTheEmptySequence : Obligations.ChkValidateRefusesTheEmptySequence := by
  unfold Obligations.ChkValidateRefusesTheEmptySequence
  intro s
  simp only [exec, execChkValidate, valid?_nil]

/-! ### The selection in the final step (R108) -/

theorem decodeByte_full_eq_accEmit_iff {sum b : Byte} : decodeByte (.full sum) b = .accEmit b ↔ b = sum := by
  by_cases hb : b = sum
  · subst hb; simp [decodeByte_full_of_match]
  · simp [decodeByte_full_of_mismatch, hb]

theorem decodeByte_full_eq_accRewind_iff {sum b : Byte} :
    decodeByte (.full sum) b = .accRewind b ↔ b ≠ sum := by
  by_cases hb : b = sum
  · subst hb; simp [decodeByte_full_of_match]
  · simp [decodeByte_full_of_mismatch, hb]

/-- Settles O37: both the dispatch and `valid` of the candidate compare the byte with the sum of the bytes
collected. -/
theorem emitIsSelectedIffTheCandidateIsValid : Obligations.EmitIsSelectedIffTheCandidateIsValid := by
  unfold Obligations.EmitIsSelectedIffTheCandidateIsValid
  intro s b hinv hst hf
  obtain ⟨id, body, hc, -⟩ := hinv.dec.collected_eq hst
  have hctx := State.ctx_full hst hf hc
  refine ⟨_, _, State.candidate_of_collected b hf hc, hc, ?_, ?_, valid?_concat_eq_true_iff⟩
  · rw [exists_exec_next_iff hctx rfl, decodeByte_full_eq_accEmit_iff, valid?_concat_eq_true_iff]
  · rw [exists_exec_next_iff hctx rfl, decodeByte_full_eq_accRewind_iff, valid?_concat_eq_false_iff]

end Sys2Proof.Machine

/-!
# The stream interface: intake, the burst, agreement with `Scan` (R115 to R128)

`IN.TAKE`, `RQ.TAKE`, the drain and the burst are chains of consumed bytes, and a consumed byte keeps the
forecast; so what the outside sees of a whole burst is the forecast of the bytes held and the burst
(`Absorbs`). After the burst the queue is empty and the forecast is what the block shows. No operation reads
what the last one showed (`consume_quiet`), so a burst may be cut anywhere.
-/

namespace Sys2Proof.Machine

/-! ### The two intake operations (R119, R120) -/

theorem rq_ne_nil_of_rqTake {s t : State} (h : execRqTake s = .next t) : s.rq ≠ [] := by
  obtain ⟨b, r, hq, -⟩ := execRqTake_next h
  exact hq ▸ List.cons_ne_nil b r

theorem inputs_of_rqTake {s t : State} (h : execRqTake s = .next t) : t.inputs = s.inputs := by
  obtain ⟨b, r, -, hc⟩ := execRqTake_next h
  exact hc.inputs_eq

/-- Settles O11: with an empty queue the offered byte is consumed, and consuming it is running the operation its
row selects. -/
theorem inTakeConsumesTheOfferedByte : Obligations.InTakeConsumesTheOfferedByte := by
  unfold Obligations.InTakeConsumesTheOfferedByte
  refine ⟨fun s b hinv hq => ?_, fun s t b ht => (execInTake_next ht).1⟩
  obtain ⟨c, hctx⟩ := hinv.dec.exists_ctx
  obtain ⟨t, ht⟩ := hinv.exists_inTake hq b
  have hc := (execInTake_next ht).2
  exact ⟨c, t, hctx, ht, hc.exec_eq hctx rfl, hc.inputs_eq⟩

/-- Settles O12: the popped head is consumed in the state whose queue is the rest, and the row that selects its
operation does not look at the queue. -/
theorem rqTakePopsThenConsumes : Obligations.RqTakePopsThenConsumes := by
  unfold Obligations.RqTakePopsThenConsumes
  refine ⟨fun s b r hinv hq => ?_, fun s t => rq_ne_nil_of_rqTake⟩
  obtain ⟨c, hctx⟩ := hinv.dec.exists_ctx
  obtain ⟨t, ht⟩ := hinv.exists_rqTake (hq ▸ List.cons_ne_nil b r)
  obtain ⟨b', r', hq', hc⟩ := execRqTake_next ht
  obtain ⟨rfl, rfl⟩ := List.cons.inj (hq.symm.trans hq')
  exact ⟨c, t, hctx, ht, hc.exec_eq hctx rfl, hc.inputs_eq⟩

/-- Settles O39: an enabled operation answers a next state in the invariant, and each of the three answers one
only where the queue enables it. -/
theorem intakeIsEnabledByTheQueueAlone : Obligations.IntakeIsEnabledByTheQueueAlone := by
  unfold Obligations.IntakeIsEnabledByTheQueueAlone
  intro s hinv
  refine ⟨⟨fun ⟨t, ht⟩ => rq_ne_nil_of_rqTake ht, fun hq => ?_⟩,
    fun b => ⟨fun ⟨t, ht⟩ => (execInTake_next ht).1, fun hq => ?_⟩,
    fun x => ⟨fun ⟨t, ht⟩ => (execFeed_next ht).1, fun hq => ?_⟩⟩
  · exact hinv.exists_exec_of_enabled (.rqTake hq)
  · exact hinv.exists_exec_of_enabled (.inTake b hq)
  · exact hinv.exists_exec_of_enabled (.feed x hq)

/-! ### The output port (R118) -/

/-- Settles O42: of the seven operations' effects only that of `ACC.EMIT` puts a transaction on the cleared port,
and it gives the sink the same one. -/
theorem outputComesOnlyFromAccEmit : Obligations.OutputComesOnlyFromAccEmit := by
  unfold Obligations.OutputComesOnlyFromAccEmit
  intro i b s t hi h
  have hsilent : i ≠ .accEmit b → t.out = none → t.sink = s.sink →
      (t.out.isSome = true ↔ i = .accEmit b) ∧ t.sink = s.sink ++ t.out.toList := fun hne hout hsink => by
    simp [hne, hout, hsink]
  cases i with
  | idAccept | idNoise | lenZero | lenAccept | accStore =>
    cases hi
    cases (onSelected_next h).2
    exact hsilent nofun rfl rfl
  | accRewind =>
    cases hi
    have heffect := (onSelected_next h).2
    split at heffect
    · cases heffect
    · cases heffect
      exact hsilent nofun rfl rfl
  | accEmit =>
    cases hi
    have heffect := (onSelected_next h).2
    split at heffect
    · cases heffect
    · cases heffect
      exact ⟨iff_of_true rfl rfl, rfl⟩
  | chkSum | chkValidate | inTake | rqTake | feed | reset => cases hi

/-! ### The ports (R116, R117, R119, R122, R185) -/

/-- Settles O17: each move asks for one operation, and only a burst or a byte waits for the queue. -/
theorem portRequestSelectsItsOperation : Obligations.PortRequestSelectsItsOperation := by
  unfold Obligations.PortRequestSelectsItsOperation
  refine ⟨fun i x rest h => ?_, fun rq rest => rfl⟩
  cases i with
  | inTake | feed | reset | chkSum | chkValidate => cases h; rfl
  | idAccept | idNoise | lenZero | lenAccept | accStore | accEmit | accRewind | rqTake => cases h

/-- Settles O40: with an empty queue the ports select nothing where no move is left, or a silence or a boundary
comes first. -/
theorem quiescentBlockWaits : Obligations.QuiescentBlockWaits := by
  unfold Obligations.QuiescentBlockWaits
  intro s hq
  constructor
  · intro hin
    have hsel : selectPort s.rq s.inputs = .idle s.inputs := by rw [hq, hin]; rfl
    exact step_idle hsel
  · intro l hin
    have hsel : selectPort s.rq s.inputs = .idle l := by
      rcases hin with hin | hin <;> rw [hq, hin] <;> rfl
    exact step_idle hsel

/-- Settles O41: `in_ready` says which of the two intake operations the ports select; `IN.TAKE` uses up the offer
and `RQ.TAKE` leaves it. -/
theorem offeredByteIsHeldUntilReady : Obligations.OfferedByteIsHeldUntilReady := by
  unfold Obligations.OfferedByteIsHeldUntilReady
  intro s b rest hinv hin
  refine ⟨by rw [State.offered, hin], fun hready => ?_, fun hbusy => ?_⟩
  · have hq := s.inReady_iff.1 hready
    have hsel : selectPort s.rq s.inputs = .run (.inTake b) rest := by rw [hq, hin]; rfl
    obtain ⟨t, ht⟩ := (hinv.of_inputs_subset (selectPort_run hsel).2).exists_inTake hq b
    exact ⟨t, (step_run hsel).trans ht, (execInTake_next ht).2.inputs_eq, ht⟩
  · have hsel : selectPort s.rq s.inputs = .run .rqTake s.inputs := by
      rw [hin]; exact if_neg (ne_true_of_eq_false hbusy)
    have hq : s.rq ≠ [] := mt s.inReady_iff.2 (ne_true_of_eq_false hbusy)
    obtain ⟨t, ht⟩ := hinv.exists_rqTake hq
    exact ⟨t, (step_run hsel).trans ht, (inputs_of_rqTake ht).trans hin, ht⟩

/-! ### The forecast across a burst (R123, R125) -/

/-- From `s` to `t` the block took the bytes `x` from the source: no move of the outside is used up, and whatever
bytes follow, the frames and the decoder value they lead to are those of the bytes held in `s`, then `x`. -/
structure Absorbs (s : State) (x : List Byte) (t : State) : Prop where
  inputs_eq : t.inputs = s.inputs
  forecast_eq (y : List Byte) : forecast t.sink (t.held ++ y) = forecast s.sink (s.held ++ (x ++ y))

namespace Absorbs

variable {s t u : State} {x y : List Byte}

theorem refl (s : State) : Absorbs s [] s := ⟨rfl, fun _ => rfl⟩

theorem trans (h : Absorbs s x t) (h' : Absorbs t y u) : Absorbs s (x ++ y) u where
  inputs_eq := h'.inputs_eq.trans h.inputs_eq
  forecast_eq z := by rw [h'.forecast_eq, h.forecast_eq, List.append_assoc]

/-- In a quiescent state of the invariant the forecast is what the block shows. -/
theorem shown_eq (h : Absorbs s x t) (ht : t.Inv) (hq : t.rq = []) :
    (t.sink, t.dec) = forecast s.sink (s.held ++ x) := by
  rw [← ht.dec.forecast_held hq]
  simpa using h.forecast_eq []

end Absorbs

theorem State.Inv.absorbs_of_inTake {s t : State} {b : Byte} (h : s.Inv) (ht : execInTake b s = .next t) :
    Absorbs s [b] t := by
  obtain ⟨hq, hc⟩ := execInTake_next ht
  refine ⟨hc.inputs_eq, fun y => ?_⟩
  rw [hc.forecast_eq h.dec, State.held, hq, List.append_nil]
  rfl

theorem State.Inv.absorbs_of_rqTake {s t : State} (h : s.Inv) (ht : execRqTake s = .next t) :
    Absorbs s [] t := by
  obtain ⟨b, r, hq, hc⟩ := execRqTake_next ht
  refine ⟨hc.inputs_eq, fun y => ?_⟩
  rw [hc.forecast_eq h.dec, State.held, hq, List.append_assoc]
  rfl

theorem State.Inv.absorbs_of_drain {n : Nat} {s t : State} (h : s.Inv) (ht : drain n s = .next t) :
    Absorbs s [] t :=
  (drain_next_rel (R := fun s t => s.Inv → Absorbs s [] t) (fun s _ => .refl s)
    (fun _ _ _ hu hut hs => (hs.absorbs_of_rqTake hu).trans (hut (hs.after_rqTake hu))) ht).2 h

theorem State.Inv.absorbs_of_feedBytes {x : List Byte} {s t : State} (h : s.Inv)
    (ht : feedBytes x s = .next t) : Absorbs s x t := by
  induction x generalizing s with
  | nil => cases ht; exact .refl _
  | cons b x ih =>
    obtain ⟨u, v, hu, hv, ht⟩ := feedBytes_cons_next ht
    have huInv := h.after_inTake hu
    exact (h.absorbs_of_inTake hu).trans
      ((huInv.absorbs_of_drain hv).trans (ih (huInv.after_drain hv) ht))

theorem rq_eq_nil_of_feedBytes {x : List Byte} {s t : State} (hq : s.rq = [])
    (ht : feedBytes x s = .next t) : t.rq = [] := by
  induction x generalizing s with
  | nil => cases ht; exact hq
  | cons b x ih =>
    obtain ⟨u, v, -, hv, ht⟩ := feedBytes_cons_next ht
    exact ih (rq_eq_nil_of_drain hv) ht

/-- A burst in a quiescent state completes, and leaves a quiescent state of the invariant. -/
theorem State.Inv.exists_feed {s : State} (h : s.Inv) (hq : s.rq = []) (x : List Byte) :
    ∃ t, execFeed x s = .next t ∧ t.Inv ∧ t.rq = [] ∧ Absorbs s x t := by
  have hquiet : s.quiet.Inv := h.quiet_fn none
  obtain ⟨t, ht⟩ := hquiet.exists_feedBytes hq x
  obtain ⟨hin, hforecast⟩ := hquiet.absorbs_of_feedBytes ht
  exact ⟨t, (execFeed_of_ready x hq).trans ht, hquiet.after_feedBytes ht,
    rq_eq_nil_of_feedBytes (s := s.quiet) hq ht, hin, hforecast⟩

/-! ### Agreement with `Scan` (R125 to R128) -/

/-- Settles O29: a burst keeps the forecast, which in the quiescent state after it is what the block shows. -/
theorem feedContinuesScanFromTheHeldBytes : Obligations.FeedContinuesScanFromTheHeldBytes := by
  unfold Obligations.FeedContinuesScanFromTheHeldBytes
  intro s x hinv hq
  obtain ⟨t, ht, htInv, htq, habs⟩ := hinv.exists_feed hq x
  obtain ⟨hsink, hdec⟩ := Prod.mk.inj (habs.shown_eq htInv htq)
  exact ⟨t, ht, hsink, hdec, htq⟩

/-- Bursts fed one after another are taken as their concatenation. -/
theorem State.Inv.exists_feedBursts {s : State} (h : s.Inv) (hq : s.rq = []) (bursts : List (List Byte)) :
    ∃ t, feedBursts bursts s = .next t ∧ t.Inv ∧ t.rq = [] ∧ Absorbs s bursts.flatten t := by
  induction bursts generalizing s with
  | nil => exact ⟨s, rfl, h, hq, .refl s⟩
  | cons x bursts ih =>
    obtain ⟨u, hu, huInv, huq, hsu⟩ := h.exists_feed hq x
    obtain ⟨t, ht, htInv, htq, hut⟩ := ih huInv huq
    refine ⟨t, ?_, htInv, htq, hsu.trans hut⟩
    simp only [feedBursts, hu, ht]

/-- Settles O28: after reset nothing is held and the sink is empty, so the forecast is that of the bursts alone. -/
theorem burstsFromResetEmitDecode : Obligations.BurstsFromResetEmitDecode := by
  unfold Obligations.BurstsFromResetEmitDecode
  intro bursts
  obtain ⟨t, ht, htInv, htq, habs⟩ := State.Inv.exists_feedBursts resetMeetsTheInvariant rfl bursts
  obtain ⟨hsink, hdec⟩ := Prod.mk.inj (habs.shown_eq htInv htq)
  exact ⟨t, ht, hsink, hdec, htq⟩

/-- `Scan` delivers well-formed frames one by one and is back at the start after each. -/
theorem scan_flatten_of_frameWF {fs : List (List Byte)} (h : ∀ f ∈ fs, frameWF f = true) :
    scan fs.flatten = (fs, .idle) := by
  induction fs with
  | nil => rfl
  | cons f fs ih =>
    obtain ⟨hf, hfs⟩ := List.forall_mem_cons.1 h
    obtain ⟨id, len, body, rfl⟩ := exists_cons_cons_of_frameWF hf
    obtain ⟨hid, hlen, hbody, hv⟩ := frameWF_cons_cons.1 hf
    rw [List.flatten_cons, scan_valid hid hlen hbody hv, ih hfs]

/-- Settles O30: `Scan` passes the frames through, and in `Idle` with an empty queue the block holds no byte, so
FEED follows `Scan` of the burst alone. -/
theorem cleanStreamPassesUnchanged : Obligations.CleanStreamPassesUnchanged := by
  unfold Obligations.CleanStreamPassesUnchanged
  intro fs hfs
  have hscan := scan_flatten_of_frameWF hfs
  refine ⟨hscan, fun s hinv hst hq => ?_⟩
  obtain ⟨t, ht, hsink, hdec, htq⟩ := feedContinuesScanFromTheHeldBytes s fs.flatten hinv hq
  rw [State.held_idle hst, hq, List.nil_append] at hsink hdec
  refine ⟨t, ht, ?_, ?_, htq⟩
  · rw [hsink, decodeStream, hscan]
  · rw [← t.dec_st, hdec, hscan]
    rfl

/-- Settles O31, from R126 as R128 says: the frames of the first burst are in the sink before the second is taken,
and the forecast of the second only adds to them. -/
theorem emittedFramesAreNeverWithdrawn : Obligations.EmittedFramesAreNeverWithdrawn := by
  unfold Obligations.EmittedFramesAreNeverWithdrawn
  intro x y
  obtain ⟨t, -, htInv, htq, habs⟩ := State.Inv.exists_feed resetMeetsTheInvariant rfl x
  have hx : t.sink = (decodeStream x).map mkTxn := congrArg Prod.fst (habs.shown_eq htInv htq)
  have hxy : t.sink ++ (decodeStream (t.held ++ y)).map mkTxn = (decodeStream (x ++ y)).map mkTxn :=
    congrArg Prod.fst (habs.forecast_eq y)
  have hprefix : (decodeStream x).map mkTxn <+: (decodeStream (x ++ y)).map mkTxn := ⟨_, hx ▸ hxy⟩
  have hinj : Function.Injective mkTxn := Function.LeftInverse.injective (g := OutTxn.frame) mkTxn_frame
  exact (List.prefix_map_iff_of_injective hinj).1 hprefix

/-! ### A burst cut in two (R123) -/

/-- Every byte operation clears the port and the labels first, so it does not depend on what they show. -/
theorem consume_quiet (b : Byte) (s : State) : consume b s.quiet = consume b s := by
  rfl

/-- The first byte of a burst makes up for ports and labels not cleared before it. -/
theorem feedBytes_cons_quiet (b : Byte) (bs : List Byte) (s : State) :
    feedBytes (b :: bs) s.quiet = feedBytes (b :: bs) s := by
  simp only [feedBytes, feedByte, execInTake, State.quiet_inReady, consume_quiet]

/-- FEED leaves what the loop over the burst leaves, but for the port and the labels. -/
theorem exists_feedBytes_of_execFeed {bs : List Byte} {s t : State} (ht : execFeed bs s = .next t) :
    ∃ u, feedBytes bs s = .next u ∧ u.quiet = t.quiet := by
  have ht := (execFeed_next ht).2
  cases bs with
  | nil => cases ht; exact ⟨s, rfl, rfl⟩
  | cons b bs => exact ⟨t, (feedBytes_cons_quiet b bs s).symm.trans ht, rfl⟩

theorem feedBytes_append_of_next {x : List Byte} {s u : State} (hu : feedBytes x s = .next u) (y : List Byte) :
    feedBytes (x ++ y) s = feedBytes y u := by
  induction x generalizing s with
  | nil => cases hu; rfl
  | cons b x ih =>
    obtain ⟨v, w, hv, hw, hu⟩ := feedBytes_cons_next hu
    rw [List.cons_append, feedBytes_cons_of_next hv hw, ih hu]

/-- Settles O50: the loop over `x ++ y` is the loop over `x` and then over `y`. -/
theorem feedChunkingIsInvisible : Obligations.FeedChunkingIsInvisible := by
  unfold Obligations.FeedChunkingIsInvisible
  intro s x y hinv hq
  obtain ⟨u, hu, huInv, huq, -⟩ := hinv.exists_feed hq x
  obtain ⟨v, hv, -⟩ := huInv.exists_feed huq y
  obtain ⟨t, ht, htv⟩ := exists_feedBytes_of_execFeed hv
  refine ⟨u, v, t, hu, hv, ?_, htv⟩
  exact (execFeed_of_ready _ hq).trans ((feedBytes_append_of_next (execFeed_next hu).2 y).trans ht)

/-- What a drain of the model leaves is what the loop of R123 leaves. -/
theorem drains_of_drain {n : Nat} {s t : State} (h : drain n s = .next t) : Drains s t := by
  induction n generalizing s with
  | zero =>
    rcases drain_next h with ⟨hq, rfl⟩ | ⟨_, _, hm, -⟩
    · exact .done hq
    · cases hm
  | succ n ih =>
    rcases drain_next h with ⟨hq, rfl⟩ | ⟨m, u, hm, hu, hrest⟩
    · exact .done hq
    · cases hm
      exact .take hu (ih hrest)

/-- Settles O13: one turn of the loop is `IN.TAKE` and the drain, and the rest of the burst is a FEED. -/
theorem feedIsTheLoopOverTheBurst : Obligations.FeedIsTheLoopOverTheBurst := by
  unfold Obligations.FeedIsTheLoopOverTheBurst
  intro s hinv hq
  refine ⟨execFeed_of_ready [] hq, fun b bs => ?_⟩
  obtain ⟨u, hu⟩ := hinv.exists_inTake hq b
  have huInv := hinv.after_inTake hu
  obtain ⟨v, hv⟩ := huInv.exists_drain
  obtain ⟨w, hw, -⟩ := (huInv.after_drain hv).exists_feed (rq_eq_nil_of_drain hv) bs
  obtain ⟨t, ht, htInv, htq, habs⟩ := hinv.exists_feed hq (b :: bs)
  obtain ⟨t', ht', htw⟩ := exists_feedBytes_of_execFeed hw
  have hloop : execFeed (b :: bs) s = .next t' := by
    rw [execFeed_of_ready _ hq, feedBytes_cons_quiet, feedBytes_cons_of_next hu hv, ht']
  obtain rfl : t = t' := by cases ht.symm.trans hloop; rfl
  exact ⟨u, v, w, t, hu, drains_of_drain hv, hw, ht, htw, htq, habs.inputs_eq⟩

end Sys2Proof.Machine

/-!
# The error kinds (R160 to R168)

Every byte operation clears the label of the last one, and only `ID.NOISE`, `LEN.ZERO` and `ACC.REWIND` set it
again; each of the three stands in one state of `st` alone and ends in `Idle` with no transaction on the port.
-/

namespace Sys2Proof.Machine

/-- The consumed byte that raises a kind is noise in `Idle`, the zero Length in `LengthPending`, or the last byte of
a failed candidate in `Accumulating` (R162 to R164). -/
theorem Consumed.raised_cases {b : Byte} {s t : State} {k : ErrorKind} (h : Consumed b s t)
    (hk : t.raised = some k) :
    t.st = .idle ∧ t.out = none ∧
    ((s.st = .idle ∧ k = .syncNoise b) ∨
     (s.st = .lengthPending ∧ k = .zeroLength s.idReg) ∨
     (s.st = .accumulating ∧ ∃ f, k = .checksumMismatch (f ++ [b]))) := by
  cases h with
  | idAccept | lenAccept | accStore | accEmit => cases hk
  | idNoise hst =>
    cases hk
    exact ⟨hst, rfl, .inl ⟨hst, rfl⟩⟩
  | lenZero hst =>
    cases hk
    exact ⟨rfl, rfl, .inr (.inl ⟨hst, rfl⟩)⟩
  | accRewind bs hst =>
    cases hk
    exact ⟨rfl, rfl, .inr (.inr ⟨hst, bs, rfl⟩)⟩

/-- Settles O44: a byte operation that answers a next state consumes its byte, and the code is the kind's own. -/
theorem errorKindsAreExclusiveByState : Obligations.ErrorKindsAreExclusiveByState := by
  unfold Obligations.ErrorKindsAreExclusiveByState
  intro i b s t k hi h hk
  obtain ⟨-, hc⟩ := (exec_next_iff_consumed hi).1 h
  obtain ⟨hidle, hout, hkind⟩ := hc.raised_cases hk
  refine ⟨hidle, hout, ?_⟩
  rcases hkind with ⟨hst, rfl⟩ | ⟨hst, rfl⟩ | ⟨hst, f, rfl⟩
  · exact .inl ⟨hst, rfl, rfl⟩
  · exact .inr (.inl ⟨hst, rfl, rfl⟩)
  · exact .inr (.inr ⟨hst, rfl, f, rfl⟩)

end Sys2Proof.Machine

/-!
# Reset, and the step count of a clean stream (R185, R186, R199)

`RESET` leaves a state of `Idle` with nothing queued, whose other items are all dead. In a clean stream every byte is
taken from the source by one step: no frame of it is rewound, so the queue stays empty and every step finds the
next byte offered. The count is made frame by frame: the Id and the Length open the buffer, and each further byte
is stored but the last, which is the sum and delivers the frame.
-/

namespace Sys2Proof.Machine

/-! ### Reset (R185, R186) -/

/-- Settles O14: `RESET` empties the queue and enters `Idle`, where no register and no cell is live. -/
theorem resetReturnsToIdleAndDiscards : Obligations.ResetReturnsToIdleAndDiscards := by
  unfold Obligations.ResetReturnsToIdleAndDiscards
  intro s
  exact ⟨_, rfl, rfl, rfl, rfl, rfl, rfl, rfl, rfl, .of_idle rfl rfl rfl rfl⟩

/-! ### Runs over offered bytes (R119, R121) -/

/-- A run is cut after any number of its steps. -/
theorem run_add_of_run {m : Nat} {s u : State} (h : run m s = .next u) (n : Nat) : run (m + n) s = run n u := by
  induction m generalizing s with
  | zero => cases h; rw [Nat.zero_add]
  | succ m ih =>
    cases hstep : step s with
    | next v =>
      rw [run_succ_of_step hstep] at h
      rw [Nat.succ_add, run_succ_of_step hstep, ih h]
    | fault r => cases r
    | refused r =>
      simp only [run, Host.Core.run] at h
      rw [show core.step s = .refused r from hstep] at h
      cases h

/-- A block that is ready spends one step on the byte offered. -/
theorem Consumed.run_succ {s u : State} {b : Byte} {rest : List Input}
    (hc : Consumed b { s with inputs := rest } u) (hq : s.rq = []) (hin : s.inputs = .offer b :: rest) (k : Nat) :
    run (k + 1) s = run k u := by
  obtain ⟨c, hctx⟩ := hc.exists_ctx
  refine run_succ_of_step ?_ k
  calc step s = exec (decodeByte c b) { s with inputs := rest } := step_inTake hctx hq hin
    _ = consume b { s with inputs := rest } := (consume_eq_exec b hctx).symm
    _ = .next u := (consume_iff b _ u).2 hc

/-! ### The steps of a clean stream (R127, R199) -/

/-- Between two frames: `Idle`, nothing queued, `moves` still to come, and `sink` received. -/
structure State.BetweenFrames (s : State) (moves : List Input) (sink : List OutTxn) : Prop where
  st : s.st = .idle
  rq : s.rq = []
  inputs : s.inputs = moves
  sink : s.sink = sink

/-- The Id and the Length open the buffer in one step each (R87, R89). -/
theorem State.BetweenFrames.exists_run_opening {s : State} {id len : Byte} {rest : List Input} {sink : List OutTxn}
    (h : s.BetweenFrames (.offer id :: .offer len :: rest) sink) (hid : idTest id = true)
    (hlen : lenTest len = true) :
    ∃ u, run 2 s = .next u ∧ u.st = .accumulating ∧ u.collected = some [id, len] ∧ u.fill = 2#9 ∧
      u.lenReg = len ∧ u.rq = [] ∧ u.inputs = rest ∧ u.sink = sink := by
  obtain ⟨hst, hq, hin, hsink⟩ := h
  have haccept := Consumed.idAccept (s := { s with inputs := .offer len :: rest }) hst hid
  have hopen := Consumed.run_succ (rest := rest)
    (s := { s.quiet with idReg := id, st := .lengthPending, inputs := .offer len :: rest })
    (.lenAccept rfl hlen) hq rfl 0
  exact ⟨_, (haccept.run_succ hq hin 1).trans hopen, rfl, State.collected_opened _ len, rfl, rfl, hq, rfl, hsink⟩

/-- The rest of a frame whose bytes `bs` are collected: the content is stored byte by byte (R90), and the sum
delivers the frame (R91). -/
theorem State.exists_run_completion {s : State} {bs c : List Byte} {x : Byte} {rest : List Input}
    (hst : s.st = .accumulating) (hq : s.rq = []) (hcol : s.collected = some bs)
    (hf : s.fill.toNat + c.length + 1 = s.blen.toNat) (hx : x = sum8 (bs ++ c))
    (hin : s.inputs = (c ++ [x]).map .offer ++ rest) :
    ∃ t, run (c.length + 1) s = .next t ∧ t.BetweenFrames rest (s.sink ++ [mkTxn (bs ++ c ++ [x])]) := by
  induction c generalizing s bs with
  | nil =>
    rw [List.append_nil] at hx ⊢
    have hemit := Consumed.accEmit (s := { s with inputs := rest }) bs hst hf hcol hx
    exact ⟨_, hemit.run_succ hq hin 0, rfl, hq, rfl, rfl⟩
  | cons b c ih =>
    rw [List.length_cons] at hf ⊢
    rw [List.append_cons bs b c] at hx ⊢
    have hroom : s.fill.toNat + 1 < s.blen.toNat := by omega
    have hf' : (s.fill + 1#9).toNat + c.length + 1 = s.blen.toNat := by
      rw [State.fill_succ_toNat hroom]; omega
    have hstore := Consumed.accStore (b := b) (s := { s with inputs := (c ++ [x]).map .offer ++ rest }) hst hroom
    obtain ⟨t, hrun, ht⟩ := ih (s := { s.quiet with
        buf := s.stored b
        fill := s.fill + 1#9
        inputs := (c ++ [x]).map .offer ++ rest })
      hst hq (State.collected_stored hroom hcol) hf' hx rfl
    exact ⟨t, (hstore.run_succ hq hin _).trans hrun, ht⟩

/-- A well-formed frame is delivered by as many steps as it has bytes. -/
theorem State.BetweenFrames.exists_run_frame {s : State} {f : List Byte} {rest : List Input} {sink : List OutTxn}
    (h : s.BetweenFrames (f.map .offer ++ rest) sink) (hf : frameWF f = true) :
    ∃ t, run f.length s = .next t ∧ t.BetweenFrames rest (sink ++ [mkTxn f]) := by
  obtain ⟨id, len, c, rfl, hc⟩ := exists_content_of_frameWF hf
  obtain ⟨hid, hlen, -⟩ := frameWF_cons_cons.1 hf
  obtain ⟨u, hu, hst, hcol, hfill, hlenReg, hq, hin, rfl⟩ := h.exists_run_opening hid hlen
  have hlast : u.fill.toNat + c.length + 1 = u.blen.toNat := by
    rw [u.blen_toNat, hlenReg, ← hc, hfill, BitVec.toNat_ofNat]; omega
  obtain ⟨t, ht, hend⟩ := State.exists_run_completion hst hq hcol hlast rfl hin
  have hlength : (id :: len :: c ++ [sum8 (id :: len :: c)]).length = 2 + (c.length + 1) := by
    rw [List.length_append, List.length_cons, List.length_cons, List.length_singleton]; omega
  exact ⟨t, by rw [hlength, run_add_of_run hu, ht], hend⟩

/-- Well-formed frames are delivered one after another by as many steps as they have bytes together. -/
theorem State.BetweenFrames.exists_run_flatten {s : State} {fs : List (List Byte)} {sink : List OutTxn}
    (h : s.BetweenFrames (fs.flatten.map .offer) sink) (hfs : ∀ f ∈ fs, frameWF f = true) :
    ∃ t, run fs.flatten.length s = .next t ∧ t.BetweenFrames [] (sink ++ fs.map mkTxn) := by
  induction fs generalizing s sink with
  | nil => exact ⟨s, rfl, by simpa using h⟩
  | cons f fs ih =>
    obtain ⟨hf, hfs⟩ := List.forall_mem_cons.1 hfs
    rw [List.flatten_cons, List.map_append] at h
    obtain ⟨u, hu, hmid⟩ := h.exists_run_frame hf
    obtain ⟨t, ht, hend⟩ := ih hmid hfs
    rw [← List.append_cons, ← List.map_cons] at hend
    exact ⟨t, by rw [List.flatten_cons, List.length_append, run_add_of_run hu, ht], hend⟩

/-- Settles O53: each frame of the stream takes as many steps as it has bytes. -/
theorem cleanStreamTakesOneStepPerByte : Obligations.CleanStreamTakesOneStepPerByte := by
  unfold Obligations.CleanStreamTakesOneStepPerByte
  intro s fs _ hst hq hfs hin
  obtain ⟨t, hrun, ⟨htst, htq, htin, hsink⟩⟩ := State.BetweenFrames.exists_run_flatten ⟨hst, hq, hin, rfl⟩ hfs
  exact ⟨t, hrun, htin, htq, htst, hsink⟩

end Sys2Proof.Machine
